-- ==== Sys2Proof/Word.lean ====
section
/-! DEFINITION. The word types of the machine and the fixed sizes of rule R4 (spec/00_scope.md).
Every value of the machine is unsigned (R8); widths are those of R4. -/

namespace Sys2Proof

/-- An 8-bit value: a general register, a timer, a memory byte, an NN immediate (R4, R60). -/
abbrev Byte := BitVec 8

/-- A 16-bit value: an instruction word, PC, I, a call-stack entry (R4). -/
abbrev Word := BitVec 16

/-- A 12-bit NNN field: an address 0x000 to 0xFFF (R60, R67). -/
abbrev Addr12 := BitVec 12

/-- A 4-bit N field: the height of a sprite, 0 to 15 (R60). -/
abbrev Nibble := BitVec 4

/-- A register selector, V0 to VF (R21, R60). -/
abbrev Reg := Fin 16

/-- A key number, 0x0 to 0xF (R32). -/
abbrev Key := Fin 16

/-- `MEM_SIZE`: 4096 bytes, addresses 0x000 to 0xFFF (R4). -/
abbrev memSize : Nat := 4096

/-- `PROG_BASE`: the program's load address and the reset value of PC (R4). -/
abbrev progBase : Nat := 0x200

/-- The most bytes a program image may have, 0x200 to 0xFFF (R136). -/
abbrev maxImage : Nat := 3584

/-- The font table's size: 16 glyphs of 5 bytes (R4, R37). -/
abbrev fontSize : Nat := 80

/-- `zext_16` of a 12-bit address (R9, R67). -/
def zext12 (a : Addr12) : Word := a.setWidth 16

/-- `zext_16` of a byte (R9). -/
def zext8 (b : Byte) : Word := b.setWidth 16

end Sys2Proof
end

