-- ==== Sys2Proof/Syntax.lean ====
section
/-! DEFINITION. The 34 instructions of R63 (spec/30_encoding.md), one constructor for each row of
spec/opcode_table.json, in the table's order. Operands are typed at the width of their field (R60), so a
term that is no instruction cannot be written. -/

namespace Sys2Proof

inductive Instr where
  /-- 00E0 CLS (R99). -/
  | cls
  /-- 00EE RET (R73). -/
  | ret
  /-- 1NNN JP NNN (R74). -/
  | jp (nnn : Addr12)
  /-- 2NNN CALL NNN (R75). -/
  | call (nnn : Addr12)
  /-- 3XNN SE Vx, NN (R76). -/
  | seImm (x : Reg) (nn : Byte)
  /-- 4XNN SNE Vx, NN (R77). -/
  | sneImm (x : Reg) (nn : Byte)
  /-- 5XY0 SE Vx, Vy (R78). -/
  | seReg (x y : Reg)
  /-- 6XNN LD Vx, NN (R81). -/
  | ldImm (x : Reg) (nn : Byte)
  /-- 7XNN ADD Vx, NN (R82). -/
  | addImm (x : Reg) (nn : Byte)
  /-- 8XY0 LD Vx, Vy (R83). -/
  | ldReg (x y : Reg)
  /-- 8XY1 OR Vx, Vy (R84). -/
  | orReg (x y : Reg)
  /-- 8XY2 AND Vx, Vy (R85). -/
  | andReg (x y : Reg)
  /-- 8XY3 XOR Vx, Vy (R86). -/
  | xorReg (x y : Reg)
  /-- 8XY4 ADD Vx, Vy (R87). -/
  | addReg (x y : Reg)
  /-- 8XY5 SUB Vx, Vy (R88). -/
  | subReg (x y : Reg)
  /-- 8XY6 SHR Vx, Vy (R89). -/
  | shrReg (x y : Reg)
  /-- 8XY7 SUBN Vx, Vy (R90). -/
  | subnReg (x y : Reg)
  /-- 8XYE SHL Vx, Vy (R91). -/
  | shlReg (x y : Reg)
  /-- 9XY0 SNE Vx, Vy (R79). -/
  | sneReg (x y : Reg)
  /-- ANNN LD I, NNN (R93). -/
  | ldI (nnn : Addr12)
  /-- BNNN JP V0, NNN (R80). -/
  | jpOff (nnn : Addr12)
  /-- CXNN RND Vx, NN (R92). -/
  | rnd (x : Reg) (nn : Byte)
  /-- DXYN DRW Vx, Vy, N (R101). -/
  | drw (x y : Reg) (n : Nibble)
  /-- EX9E SKP Vx (R104). -/
  | skp (x : Reg)
  /-- EXA1 SKNP Vx (R105). -/
  | sknp (x : Reg)
  /-- FX07 LD Vx, DT (R107). -/
  | readDt (x : Reg)
  /-- FX0A LD Vx, K (R106). -/
  | waitKey (x : Reg)
  /-- FX15 LD DT, Vx (R108). -/
  | setDt (x : Reg)
  /-- FX18 LD ST, Vx (R109). -/
  | setSt (x : Reg)
  /-- FX1E ADD I, Vx (R94). -/
  | addI (x : Reg)
  /-- FX29 LD F, Vx (R95). -/
  | ldFont (x : Reg)
  /-- FX33 LD B, Vx (R96). -/
  | storeBcd (x : Reg)
  /-- FX55 LD [I], Vx (R97). -/
  | storeRegs (x : Reg)
  /-- FX65 LD Vx, [I] (R98). -/
  | loadRegs (x : Reg)
deriving DecidableEq, Repr

end Sys2Proof
end

