-- ==== Sys2Proof/Decode.lean ====
section
/-! DEFINITION. Decoding and encoding: the fields of R60, the decode tree of R62, the opcode map of R63 and
the formats of R66 (spec/30_encoding.md). Bit 0 is the least significant bit of a word (R6). -/

namespace Sys2Proof

/-! ## Fields (R60) -/

/-- `w[15:12]`, the family. -/
def opField (w : Word) : Nibble := w.extractLsb' 12 4

/-- `w[11:8]`, the X selector. -/
def xField (w : Word) : Reg := ⟨(w.extractLsb' 8 4).toNat, (w.extractLsb' 8 4).isLt⟩

/-- `w[7:4]`, the Y selector. -/
def yField (w : Word) : Reg := ⟨(w.extractLsb' 4 4).toNat, (w.extractLsb' 4 4).isLt⟩

/-- `w[3:0]`, N. -/
def nField (w : Word) : Nibble := w.extractLsb' 0 4

/-- `w[7:0]`, NN. -/
def nnField (w : Word) : Byte := w.extractLsb' 0 8

/-- `w[11:0]`, NNN. -/
def nnnField (w : Word) : Addr12 := w.extractLsb' 0 12

/-! ## The decoder (R62) -/

/-- Why bytes are no instruction. -/
inductive DecodeError where
  /-- A word outside the 34 instructions (R64, R116). -/
  | illegalWord (w : Word)
  /-- Fewer than two bytes: no word of R59 to decode. A step never meets it, its fetch is two bytes. -/
  | truncated
deriving DecidableEq, Repr

/-- Family 8, selected by N (R62). -/
def decodeFamily8 (w : Word) : Except DecodeError Instr :=
  match (nField w).toNat with
  | 0x0 => .ok (.ldReg (xField w) (yField w))
  | 0x1 => .ok (.orReg (xField w) (yField w))
  | 0x2 => .ok (.andReg (xField w) (yField w))
  | 0x3 => .ok (.xorReg (xField w) (yField w))
  | 0x4 => .ok (.addReg (xField w) (yField w))
  | 0x5 => .ok (.subReg (xField w) (yField w))
  | 0x6 => .ok (.shrReg (xField w) (yField w))
  | 0x7 => .ok (.subnReg (xField w) (yField w))
  | 0xE => .ok (.shlReg (xField w) (yField w))
  | _ => .error (.illegalWord w)

/-- Family E, selected by NN (R62). -/
def decodeFamilyE (w : Word) : Except DecodeError Instr :=
  match (nnField w).toNat with
  | 0x9E => .ok (.skp (xField w))
  | 0xA1 => .ok (.sknp (xField w))
  | _ => .error (.illegalWord w)

/-- Family F, selected by NN (R62). -/
def decodeFamilyF (w : Word) : Except DecodeError Instr :=
  match (nnField w).toNat with
  | 0x07 => .ok (.readDt (xField w))
  | 0x0A => .ok (.waitKey (xField w))
  | 0x15 => .ok (.setDt (xField w))
  | 0x18 => .ok (.setSt (xField w))
  | 0x1E => .ok (.addI (xField w))
  | 0x29 => .ok (.ldFont (xField w))
  | 0x33 => .ok (.storeBcd (xField w))
  | 0x55 => .ok (.storeRegs (xField w))
  | 0x65 => .ok (.loadRegs (xField w))
  | _ => .error (.illegalWord w)

/-- The decode tree of R62: total on the 65,536 words (R71), and no configuration changes it. -/
def decode (w : Word) : Except DecodeError Instr :=
  match (opField w).toNat with
  | 0x0 =>
    if w = 0x00E0 then .ok .cls
    else if w = 0x00EE then .ok .ret
    else .error (.illegalWord w)
  | 0x1 => .ok (.jp (nnnField w))
  | 0x2 => .ok (.call (nnnField w))
  | 0x3 => .ok (.seImm (xField w) (nnField w))
  | 0x4 => .ok (.sneImm (xField w) (nnField w))
  | 0x5 => if nField w = 0 then .ok (.seReg (xField w) (yField w)) else .error (.illegalWord w)
  | 0x6 => .ok (.ldImm (xField w) (nnField w))
  | 0x7 => .ok (.addImm (xField w) (nnField w))
  | 0x8 => decodeFamily8 w
  | 0x9 => if nField w = 0 then .ok (.sneReg (xField w) (yField w)) else .error (.illegalWord w)
  | 0xA => .ok (.ldI (nnnField w))
  | 0xB => .ok (.jpOff (nnnField w))
  | 0xC => .ok (.rnd (xField w) (nnField w))
  | 0xD => .ok (.drw (xField w) (yField w) (nField w))
  | 0xE => decodeFamilyE w
  | 0xF => decodeFamilyF w
  | _ => .error (.illegalWord w)

/-- The big-endian word of two bytes: the byte at the lower address is bits 15:8 (R44). -/
def wordOfBytes (hi lo : Byte) : Word := hi ++ lo

/-- The byte of a word that lies at the lower address (R44). -/
def hiByte (w : Word) : Byte := w.extractLsb' 8 8

/-- The byte of a word that lies at the higher address (R44). -/
def loByte (w : Word) : Byte := w.extractLsb' 0 8

/-- The decoder over bytes: the instruction of the first two and the bytes after them (R59). -/
def decodeBytes : List Byte → Except DecodeError (Instr × List Byte)
  | hi :: lo :: rest =>
    match decode (wordOfBytes hi lo) with
    | .ok i => .ok (i, rest)
    | .error e => .error e
  | _ => .error .truncated

/-! ## The encoder (R63, R66) -/

/-- Format FA: `oooo aaaa aaaa aaaa`. -/
def formatFA (op : Nibble) (nnn : Addr12) : Word := op ++ nnn

/-- Format FI: `oooo xxxx bbbb bbbb`. -/
def formatFI (op : Nibble) (x : Reg) (nn : Byte) : Word := (op ++ BitVec.ofFin (w := 4) x) ++ nn

/-- Formats FR and FD: `oooo xxxx yyyy ssss`, and `1101 xxxx yyyy nnnn`. -/
def formatFR (op : Nibble) (x y : Reg) (s : Nibble) : Word :=
  (op ++ BitVec.ofFin (w := 4) x) ++ (BitVec.ofFin (w := 4) y ++ s)

/-- The word of an instruction, from the encodings of R63 and the formats of R66. -/
def encode : Instr → Word
  | .cls => 0x00E0
  | .ret => 0x00EE
  | .jp nnn => formatFA 0x1 nnn
  | .call nnn => formatFA 0x2 nnn
  | .seImm x nn => formatFI 0x3 x nn
  | .sneImm x nn => formatFI 0x4 x nn
  | .seReg x y => formatFR 0x5 x y 0x0
  | .ldImm x nn => formatFI 0x6 x nn
  | .addImm x nn => formatFI 0x7 x nn
  | .ldReg x y => formatFR 0x8 x y 0x0
  | .orReg x y => formatFR 0x8 x y 0x1
  | .andReg x y => formatFR 0x8 x y 0x2
  | .xorReg x y => formatFR 0x8 x y 0x3
  | .addReg x y => formatFR 0x8 x y 0x4
  | .subReg x y => formatFR 0x8 x y 0x5
  | .shrReg x y => formatFR 0x8 x y 0x6
  | .subnReg x y => formatFR 0x8 x y 0x7
  | .shlReg x y => formatFR 0x8 x y 0xE
  | .sneReg x y => formatFR 0x9 x y 0x0
  | .ldI nnn => formatFA 0xA nnn
  | .jpOff nnn => formatFA 0xB nnn
  | .rnd x nn => formatFI 0xC x nn
  | .drw x y n => formatFR 0xD x y n
  | .skp x => formatFI 0xE x 0x9E
  | .sknp x => formatFI 0xE x 0xA1
  | .readDt x => formatFI 0xF x 0x07
  | .waitKey x => formatFI 0xF x 0x0A
  | .setDt x => formatFI 0xF x 0x15
  | .setSt x => formatFI 0xF x 0x18
  | .addI x => formatFI 0xF x 0x1E
  | .ldFont x => formatFI 0xF x 0x29
  | .storeBcd x => formatFI 0xF x 0x33
  | .storeRegs x => formatFI 0xF x 0x55
  | .loadRegs x => formatFI 0xF x 0x65

/-! ## The opcode map (R63) -/

/-- One row of R63's table: a word is the row's instruction when `w & mask == match`. -/
structure OpcodeRow where
  mask : Word
  value : Word
deriving DecidableEq, Repr

/-- Whether a word is the row's instruction (R63). -/
def OpcodeRow.accepts (r : OpcodeRow) (w : Word) : Bool := w &&& r.mask == r.value

/-- The masks and matches of R63, rows 1 to 34, as the spec prints them. -/
def opcodeRows : List OpcodeRow :=
  [⟨0xFFFF, 0x00E0⟩, ⟨0xFFFF, 0x00EE⟩, ⟨0xF000, 0x1000⟩, ⟨0xF000, 0x2000⟩, ⟨0xF000, 0x3000⟩,
   ⟨0xF000, 0x4000⟩, ⟨0xF00F, 0x5000⟩, ⟨0xF000, 0x6000⟩, ⟨0xF000, 0x7000⟩, ⟨0xF00F, 0x8000⟩,
   ⟨0xF00F, 0x8001⟩, ⟨0xF00F, 0x8002⟩] ++
  [⟨0xF00F, 0x8003⟩, ⟨0xF00F, 0x8004⟩, ⟨0xF00F, 0x8005⟩, ⟨0xF00F, 0x8006⟩, ⟨0xF00F, 0x8007⟩,
   ⟨0xF00F, 0x800E⟩, ⟨0xF00F, 0x9000⟩, ⟨0xF000, 0xA000⟩, ⟨0xF000, 0xB000⟩, ⟨0xF000, 0xC000⟩,
   ⟨0xF000, 0xD000⟩] ++
  [⟨0xF0FF, 0xE09E⟩, ⟨0xF0FF, 0xE0A1⟩, ⟨0xF0FF, 0xF007⟩, ⟨0xF0FF, 0xF00A⟩, ⟨0xF0FF, 0xF015⟩,
   ⟨0xF0FF, 0xF018⟩, ⟨0xF0FF, 0xF01E⟩, ⟨0xF0FF, 0xF029⟩, ⟨0xF0FF, 0xF033⟩, ⟨0xF0FF, 0xF055⟩,
   ⟨0xF0FF, 0xF065⟩]

/-- An instruction's row number in R63's table, from 0. -/
def Instr.rowIndex : Instr → Nat
  | .cls => 0 | .ret => 1 | .jp _ => 2 | .call _ => 3 | .seImm _ _ => 4 | .sneImm _ _ => 5
  | .seReg _ _ => 6 | .ldImm _ _ => 7 | .addImm _ _ => 8 | .ldReg _ _ => 9 | .orReg _ _ => 10
  | .andReg _ _ => 11 | .xorReg _ _ => 12 | .addReg _ _ => 13 | .subReg _ _ => 14
  | .shrReg _ _ => 15 | .subnReg _ _ => 16 | .shlReg _ _ => 17 | .sneReg _ _ => 18
  | .ldI _ => 19 | .jpOff _ => 20 | .rnd _ _ => 21 | .drw _ _ _ => 22 | .skp _ => 23
  | .sknp _ => 24 | .readDt _ => 25 | .waitKey _ => 26 | .setDt _ => 27 | .setSt _ => 28
  | .addI _ => 29 | .ldFont _ => 30 | .storeBcd _ => 31 | .storeRegs _ => 32 | .loadRegs _ => 33

/-! ## The host's table words -/

/-- The instruction word of a table word: its low `nbits` bits, every bit above them 0. All rows have 16. -/
def tableWord (nbits w : Nat) : Word := BitVec.ofNat 16 (w % 2 ^ nbits)

/-- The instruction the decoder reads from a table word's bytes, laid out big-endian (R44). -/
def decodeTableWord (nbits w : Nat) : Option Instr :=
  match decodeBytes [hiByte (tableWord nbits w), loByte (tableWord nbits w)] with
  | .ok (i, _) => some i
  | .error _ => none

end Sys2Proof
end

