-- ==== Sys2Proof/Config.lean ====
section
/-! DEFINITION. The construction-time configuration (R5, R34 of spec/00_scope.md and spec/10_state.md)
as plain data, its default, and the values the spec leaves open, as constants without a body. -/

namespace Sys2Proof

/-- The configuration record `cfg` of R5; no step changes it (R20). A model's state carries it, so that
every statement about all states holds for every configuration. -/
structure Config where
  /-- 8XY6 and 8XYE shift a copy of VY (R89, R91); default on. -/
  legacyShift : Bool
  /-- BNNN adds VX instead of V0 (R80); default off. -/
  jumpVx : Bool
  /-- FX55 and FX65 advance I by X + 1 (R97, R98); default off. -/
  indexAdvance : Bool
  /-- DXYN wraps at the edges instead of clipping (R100); default off. -/
  spriteWrap : Bool
  /-- The font table's base; legal when `fontBase + 80 ≤ 0x200` (R5); default 0x050. -/
  fontBase : Addr12
  /-- The font table's 80 bytes (R37). -/
  fontData : Vector Byte 80
  /-- The call stack's capacity (R26); legal from 1; default 16. -/
  stackCapacity : Nat
  /-- The batch size (R140); legal from 1; the spec gives no default. -/
  instrPerFrame : Nat
  /-- `key_select` of R5 as plain data: the listed sets of pressed keys and the member chosen from each.
  A set that is not listed has a free choice (`Config.freeKey`), log entry 6. -/
  keySelect : List (BitVec 16 × Key)
deriving DecidableEq, Repr

/-- The font table of R37, [from general knowledge, not in source] in the spec's own words. -/
def Config.defaultFont : Vector Byte 80 := #v[
  0xF0, 0x90, 0x90, 0x90, 0xF0,  0x20, 0x60, 0x20, 0x20, 0x70,
  0xF0, 0x10, 0xF0, 0x80, 0xF0,  0xF0, 0x10, 0xF0, 0x10, 0xF0,
  0x90, 0x90, 0xF0, 0x10, 0x10,  0xF0, 0x80, 0xF0, 0x10, 0xF0,
  0xF0, 0x80, 0xF0, 0x90, 0xF0,  0xF0, 0x10, 0x20, 0x40, 0x40,
  0xF0, 0x90, 0xF0, 0x90, 0xF0,  0xF0, 0x90, 0xF0, 0x10, 0xF0,
  0xF0, 0x90, 0xF0, 0x90, 0x90,  0xE0, 0x90, 0xE0, 0x90, 0xE0,
  0xF0, 0x80, 0x80, 0x80, 0xF0,  0xE0, 0x90, 0x90, 0x90, 0xE0,
  0xF0, 0x80, 0xF0, 0x80, 0xF0,  0xF0, 0x80, 0xF0, 0x80, 0x80]

/-- One less than the batch size of a default machine. Free: R5 gives `instr_per_frame` no default and
only asks for a natural ≥ 1 (R140, D3); log entry 5. -/
opaque Config.openBatchSizePred : Nat

/-- The byte of the n-th draw of CXNN where no byte has been supplied (R14, R36, D20). Free; log entry 3. -/
opaque Config.freeRandomByte : Nat → Byte

/-- The host's key input of the n-th frame where none has been supplied (R128, D29). Free; log entry 4. -/
opaque Config.freeKeysIn : Nat → BitVec 16

/-- The host's halt request at the top of the n-th frame where none has been supplied (R35, D28). Free;
log entry 4. -/
opaque Config.freeHaltReq : Nat → Bool

/-- The key FX0A would choose from a set of pressed keys that `keySelect` does not list (R106, D11).
Free; log entry 6. -/
opaque Config.freeKey : BitVec 16 → Key

/-- The default configuration of R5. -/
def Config.default : Config where
  legacyShift := true
  jumpVx := false
  indexAdvance := false
  spriteWrap := false
  fontBase := 0x050
  fontData := Config.defaultFont
  stackCapacity := 16
  instrPerFrame := Config.openBatchSizePred + 1
  keySelect := []

end Sys2Proof
end

