-- ==== Sys2Proof/Machine/State.lean ====
section
/-! DEFINITION. The state of the block (R20 of spec/10_state.md) as plain data, the outputs it publishes
(R129), the model's own fields for the frame sequence and the host's inputs, the fault kinds (R111), and
construction (R133). -/

namespace Sys2Proof.Machine

/-- The fault kinds of R111 with the information each records. A rule that raises one ends at once (R12) and
the block enters the faulted status (`State.enterFault`, R110): that is a next state, so no step of this
model answers `Host.Outcome.fault`. Safe: nothing but the status and the published outputs is known after it. -/
inductive Fault where
  /-- Code 1: an illegal word; raised by the step after its fetch (R64, R116). Safe. -/
  | decodeError (w : Word)
  /-- Code 2: raised by 00EE when the call stack is empty (R112). Safe. -/
  | stackUnderflow
  /-- Code 3: raised by 2NNN when the call stack is full, with the depth (R113). Safe. -/
  | stackOverflow (depth : Nat)
  /-- Code 4: the first byte address above 0xFFF; raised by the fetch, DXYN, FX33, FX55, FX65 (R114). Safe. -/
  | addressOutOfRange (a : Nat)
  /-- Code 5: the value of VX; raised by EX9E and EXA1 when it is above 0xF (R117). Safe. -/
  | keyIndexOutOfRange (k : Byte)
deriving DecidableEq, Repr

/-- The code of a fault kind (R111; the spec's own numbering, D25). -/
def Fault.code : Fault → Nat
  | .decodeError _ => 1
  | .stackUnderflow => 2
  | .stackOverflow _ => 3
  | .addressOutOfRange _ => 4
  | .keyIndexOutOfRange _ => 5

/-- Why an instruction has no meaning in the model. -/
inductive Refusal where
  /-- Answered by `exec`'s arm of an instruction that has no meaning yet. No arm of this model answers it. Safe. -/
  | notModelled (mnemonic : String)
deriving DecidableEq, Repr

/-- What `Faulted(kind, info, word, ia)` records (R40, R110): the word is `none` when the fetch itself faulted,
and `ia` is the address of the faulting instruction. -/
structure FaultReport where
  fault : Fault
  word : Option Word
  ia : Word
deriving DecidableEq, Repr

/-- `Status` (R17, R40). -/
inductive Status where
  | running
  | halted
  | faulted (report : FaultReport)
deriving DecidableEq, Repr

/-- Where the block stands in the frame sequence of R139. The model's own field: a step of the model is one
part of a frame. -/
inductive Phase where
  /-- Between frames: the next step samples the halt request, ticks and latches. -/
  | top
  /-- Inside a frame with `left` instructions of its batch still to run; with none left the next step
  publishes the outputs. -/
  | batch (left : Nat)
deriving DecidableEq, Repr

/-- What the host presents at the top of one frame (R129): `keys_in` and `halt_req`. -/
structure FrameInput where
  keysIn : BitVec 16
  haltReq : Bool
deriving DecidableEq, Repr

/-- `FB[y][x]`: 32 rows of 64 pixels, true meaning set (R16, R31). -/
abbrev Framebuffer := Vector (Vector Bool 64) 32

/-- A framebuffer with every pixel clear. -/
def Framebuffer.clear : Framebuffer := Vector.replicate 32 (Vector.replicate 64 false)

/-- `Mem` (R33, R42): the bytes that differ from the construction contents, addresses strictly rising
(`Memory.wf` in Machine/Ops.lean). -/
abbrev Memory := List Host.Cell

/-- The state of the block. -/
structure State where
  /-- V0 to VF (R21). -/
  v : Vector Byte 16
  /-- I (R28). -/
  i : Word
  /-- PC (R24). -/
  pc : Word
  /-- The call stack, the last entry on top (R26, R27). -/
  stack : List Word
  /-- DT (R29). -/
  dt : Byte
  /-- ST (R30). -/
  st : Byte
  /-- Mem (R33). -/
  mem : Memory
  /-- FB (R31). -/
  fb : Framebuffer
  /-- Keys, the key snapshot latch: bit k is key k (R32). -/
  keys : BitVec 16
  /-- Status (R40). -/
  status : Status
  /-- The construction-time configuration (R20, R34). -/
  cfg : Config
  /-- `fb_out`, as last published (R126, R129). -/
  fbOut : Framebuffer
  /-- `tone_active`, as last published (R127, R129). -/
  toneActive : Bool
  /-- The model's own: the place in the frame sequence (R139). -/
  phase : Phase
  /-- The model's own: the host inputs of the coming frames, the next one first (R128, R129); when none is
  left, the inputs are free values. -/
  frameInputs : List FrameInput
  /-- The model's own: how many frames have sampled their inputs; it numbers the free inputs. -/
  frameCount : Nat
  /-- The model's own: the bytes the random source will give, the next one first (R36, R129 `rng_byte`); when
  none is left, a drawn byte is a free value. -/
  rngBytes : List Byte
  /-- The model's own: how many bytes have been drawn; it numbers the free bytes. -/
  drawCount : Nat
deriving DecidableEq, Repr

/-- Construction (R133) of a machine with a given configuration. Memory lists nothing: an unlisted byte reads
as the construction contents (`unlistedByte`). The published outputs before the first publication are a
DESIGN CHOICE (log entry 2). -/
def State.construct (cfg : Config) : State where
  v := Vector.replicate 16 0
  i := 0
  pc := 0x200
  stack := []
  dt := 0
  st := 0
  mem := []
  fb := Framebuffer.clear
  keys := 0
  status := .running
  cfg := cfg
  fbOut := Framebuffer.clear
  toneActive := false
  phase := .top
  frameInputs := []
  frameCount := 0
  rngBytes := []
  drawCount := 0

/-- The machine right after reset: construction with the default configuration (R5, R133), no image loaded. -/
def State.reset : State := State.construct Config.default

/-- The components whose values R115 leaves unspecified after a fault. -/
structure Residue where
  v : Vector Byte 16
  i : Word
  pc : Word
  stack : List Word
  dt : Byte
  st : Byte
  bytes : Vector Byte 4096
  fb : Framebuffer
  keys : BitVec 16
deriving Inhabited

end Sys2Proof.Machine

namespace Sys2Proof

/-- What a fault leaves in the components R115 calls unspecified: a free value, for each state and fault
(D7); log entry 1. -/
opaque Config.freeResidue : Machine.State → Machine.FaultReport → Machine.Residue

end Sys2Proof
end

