-- ==== Sys2Proof/WellFormed.lean ====
section
/-! DEFINITION. What is checked of the data a host hands to the block: the configuration (R5, R34) and the
length of the program image (R137). An instruction needs no check: each operand of `Instr` has exactly
the width of its field (R60, R72), so an ill-formed instruction cannot be built. -/

namespace Sys2Proof

/-- The font table lies below the program: `font_base + 80 <= 0x200` (R5). -/
def Config.fontFits (c : Config) : Bool := decide (c.fontBase.toNat + fontSize ≤ progBase)

/-- The call stack holds at least one entry (R5, R34). -/
def Config.stackLegal (c : Config) : Bool := decide (1 ≤ c.stackCapacity)

/-- A frame runs at least one step (R5, R140). -/
def Config.batchLegal (c : Config) : Bool := decide (1 ≤ c.instrPerFrame)

/-- Every listed choice of `key_select` is a member of its set (R5). -/
def Config.keySelectLegal (c : Config) : Bool := c.keySelect.all fun e => e.1.getLsbD e.2.val

/-- A legal configuration (R5, R34). -/
def Config.wellFormed (c : Config) : Bool :=
  c.fontFits && c.stackLegal && c.batchLegal && c.keySelectLegal

/-- A program image the load accepts: at most 3584 bytes (R137). -/
def imageFits (image : List Byte) : Bool := decide (image.length ≤ maxImage)

end Sys2Proof
end

