-- ==== Sys2Proof/Machine/Ops.lean ====
section
/-! DEFINITION. The named operations over registers, memory, call stack, framebuffer and status (R10, R11,
R12, R16, R27, R48), fault entry (R110), the random source (R14) and the load (R136). -/

namespace Sys2Proof.Machine

/-! ## Registers (R10) -/

/-- `V[r]`. -/
def State.getV (s : State) (r : Reg) : Byte := s.v[r.val]

/-- `V[r] <- b`. -/
def State.setV (s : State) (r : Reg) (b : Byte) : State := { s with v := s.v.set r.val b }

/-- `PC <- a` (R13). -/
def State.setPc (s : State) (a : Word) : State := { s with pc := a }

/-- `I <- a`. -/
def State.setI (s : State) (a : Word) : State := { s with i := a }

/-- `DT <- b`. -/
def State.setDt (s : State) (b : Byte) : State := { s with dt := b }

/-- `ST <- b`. -/
def State.setSt (s : State) (b : Byte) : State := { s with st := b }

/-- The register that is also the flag (R22). -/
abbrev vF : Reg := 15

/-- Writing a flag writes 1 or 0 to VF (R22, R23). -/
def State.setFlag (s : State) (flag : Bool) : State := s.setV vF (if flag then 1 else 0)

/-- A skip: the next word is passed over without being fetched (spec/40_control.md). -/
def State.skipIf (s : State) (cond : Bool) : State := if cond then s.setPc (s.pc + 2) else s

/-! ## Memory (R11, R33, R42) -/

/-- What an address that `Mem` does not list reads as: the construction contents, the font table at its base
and 0 elsewhere (R37, R133, R134). -/
def unlistedByte (cfg : Config) (a : Nat) : Byte :=
  if h : cfg.fontBase.toNat ≤ a ∧ a < cfg.fontBase.toNat + 80 then
    cfg.fontData[a - cfg.fontBase.toNat]'(by omega)
  else 0

/-- The byte listed for an address, else `d`. -/
def Memory.get (d : Byte) (a : Nat) : Memory → Byte
  | [] => d
  | (k, b) :: rest => if k = a then b else Memory.get d a rest

/-- Add a cell before the first cell of a higher address. -/
def Memory.place (a : Nat) (b : Byte) : Memory → Memory
  | [] => [(a, b)]
  | (k, c) :: rest => if a < k then (a, b) :: (k, c) :: rest else (k, c) :: Memory.place a b rest

/-- Write a byte whose unlisted value is `d`: a byte equal to `d` is not listed. -/
def Memory.put (d : Byte) (a : Nat) (b : Byte) (m : Memory) : Memory :=
  if b = d then m.filter (fun c => c.1 ≠ a)
  else Memory.place a b (m.filter (fun c => c.1 ≠ a))

/-- The canonical form: addresses strictly rising and inside the address space, no cell equal to what its
address reads as when unlisted. -/
abbrev Memory.wf (cfg : Config) (m : Memory) : Prop :=
  m.Pairwise (fun c d => c.1 < d.1) ∧ ∀ c ∈ m, c.1 < memSize ∧ c.2 ≠ unlistedByte cfg c.1

/-- The canonical memory that holds `f a` at each address `a`. -/
@[irreducible] def Memory.ofBytes (cfg : Config) (f : Nat → Byte) : Memory :=
  (List.range memSize).filterMap fun a => if f a = unlistedByte cfg a then none else some (a, f a)

/-- `Mem[a]` for an address inside the address space. -/
def State.byteAt (s : State) (a : Nat) : Byte := Memory.get (unlistedByte s.cfg a) a s.mem

/-- `Mem[a] <- b` for an address inside the address space. -/
def State.setByte (s : State) (a : Nat) (b : Byte) : State :=
  { s with mem := Memory.put (unlistedByte s.cfg a) a b s.mem }

/-- `MemRead(a, 1)` (R11). -/
def State.memRead (s : State) (a : Nat) : Except Fault Byte :=
  if a < memSize then .ok (s.byteAt a) else .error (.addressOutOfRange a)

/-- `MemWrite(a, 1, b)` (R11). -/
def State.memWrite (s : State) (a : Nat) (b : Byte) : Except Fault State :=
  if a < memSize then .ok (s.setByte a b) else .error (.addressOutOfRange a)

/-- `MemRead(a + k, 1)` for k = 0 .. n - 1, ascending (R45). -/
def State.readBytes (s : State) (a : Nat) : Nat → Except Fault (List Byte)
  | 0 => .ok []
  | n + 1 =>
    match s.memRead a with
    | .error f => .error f
    | .ok b =>
      match s.readBytes (a + 1) n with
      | .error f => .error f
      | .ok bs => .ok (b :: bs)

/-- `MemWrite(a + k, 1, bs[k])`, ascending (R45). -/
def State.writeBytes (s : State) (a : Nat) : List Byte → Except Fault State
  | [] => .ok s
  | b :: bs =>
    match s.memWrite a b with
    | .error f => .error f
    | .ok t => t.writeBytes (a + 1) bs

/-- `Fetch16(a)` (R48). -/
def State.fetch16 (s : State) (a : Word) : Except Fault Word :=
  if 0xFFE < a.toNat then
    .error (.addressOutOfRange (if 0xFFF < a.toNat then a.toNat else a.toNat + 1))
  else .ok (wordOfBytes (s.byteAt a.toNat) (s.byteAt (a.toNat + 1)))

/-! ## Registers in bulk (R97, R98) -/

/-- V0 .. VX as a list of X + 1 bytes. -/
def State.regsUpTo (s : State) (x : Reg) : List Byte := s.v.toList.take (x.val + 1)

/-- `V[k] <- bs[0]`, `V[k + 1] <- bs[1]`, and so on. -/
def loadFrom (v : Vector Byte 16) (k : Nat) : List Byte → Vector Byte 16
  | [] => v
  | b :: bs => loadFrom (v.setIfInBounds k b) (k + 1) bs

/-- Write registers V0, V1, and so on from a list. -/
def State.loadRegs (s : State) (bs : List Byte) : State := { s with v := loadFrom s.v 0 bs }

/-! ## Call stack (R27) -/

/-- `push(v)`. -/
def State.push (s : State) (a : Word) : Except Fault State :=
  if s.stack.length = s.cfg.stackCapacity then .error (.stackOverflow s.stack.length)
  else .ok { s with stack := s.stack ++ [a] }

/-- `pop()`: the last entry, and the state without it. -/
def State.pop (s : State) : Except Fault (Word × State) :=
  match s.stack.getLast? with
  | none => .error .stackUnderflow
  | some a => .ok (a, { s with stack := s.stack.dropLast })

/-! ## Framebuffer (R16, R100, R101) -/

/-- A pixel's place: its row and its column. -/
abbrev Place := Fin 32 × Fin 64

/-- `FB[y][x]`. -/
def Framebuffer.pixel (fb : Framebuffer) (p : Place) : Bool := (fb[p.1.val])[p.2.val]

/-- `FB[y][x] <- FB[y][x] ^ 1`. -/
def Framebuffer.toggle (fb : Framebuffer) (p : Place) : Framebuffer :=
  fb.set p.1.val ((fb[p.1.val]).set p.2.val (!(fb.pixel p)))

/-- `FB[y][x]` of a state. -/
def State.pixel (s : State) (p : Place) : Bool := s.fb.pixel p

/-- `FB <- fb`. -/
def State.setFb (s : State) (fb : Framebuffer) : State := { s with fb := fb }

/-- The set bits of one sprite row, left to right: bit 7 is column offset 0 (R46). -/
def rowCells (r : Nat) (b : Byte) : List (Nat × Nat) :=
  (List.range 8).filterMap fun c => if b.getLsbD (7 - c) then some (r, c) else none

/-- The set bits of a sprite as (row, column offset), from row `r` on, top to bottom. -/
def spriteCells (r : Nat) : List Byte → List (Nat × Nat)
  | [] => []
  | b :: bs => rowCells r b ++ spriteCells (r + 1) bs

/-- `target`: where the sprite's pixel (r, c) of a draw anchored at `vx`, `vy` lands (R100). -/
def target (wrap : Bool) (vx vy : Byte) (r c : Nat) : Option Place :=
  let px := vx.toNat % 64 + c
  let py := vy.toNat % 32 + r
  if wrap then some (⟨py % 32, Nat.mod_lt _ (by decide)⟩, ⟨px % 64, Nat.mod_lt _ (by decide)⟩)
  else if h : px < 64 ∧ py < 32 then some (⟨py, h.2⟩, ⟨px, h.1⟩)
  else none

/-- The places a draw toggles, in the order it toggles them. -/
def drawTargets (wrap : Bool) (vx vy : Byte) (rows : List Byte) : List Place :=
  (spriteCells 0 rows).filterMap fun p => target wrap vx vy p.1 p.2

/-- Toggle places in order; the flag says whether some toggle met a set pixel (R101). -/
def toggleAll : List Place → Framebuffer → Bool → Framebuffer × Bool
  | [], fb, hit => (fb, hit)
  | p :: ps, fb, hit => toggleAll ps (fb.toggle p) (hit || fb.pixel p)

/-! ## Keys (R32, R106) -/

/-- `Keys[k]`. -/
def State.keyDown (s : State) (k : Key) : Bool := s.keys.getLsbD k.val

/-- The pressed keys of a snapshot, ascending. -/
def pressedKeys (keys : BitVec 16) : List Key := (List.finRange 16).filter fun k => keys.getLsbD k.val

/-- `cfg.key_select(S)`: `none` for the empty set, the only member of a set of one, else the configured
choice, and where the configuration lists none (or no member) a free one (R5, D11; log entry 6). -/
def keySelect (cfg : Config) (keys : BitVec 16) : Option Key :=
  match pressedKeys keys with
  | [] => none
  | [k] => some k
  | k :: _ =>
    let pick := (cfg.keySelect.lookup keys).getD (Config.freeKey keys)
    some (if keys.getLsbD pick.val then pick else k)

/-! ## The random source (R14, R36) -/

/-- `draw_byte()`. -/
def State.nextRandom (s : State) : Byte :=
  match s.rngBytes with
  | b :: _ => b
  | [] => Config.freeRandomByte s.drawCount

/-- The state after a draw. -/
def State.afterDraw (s : State) : State :=
  { s with rngBytes := s.rngBytes.tail, drawCount := s.drawCount + 1 }

/-! ## Fault entry (R110, R115) -/

/-- The free byte a fault leaves at an address. -/
def Residue.byteAt (u : Residue) (a : Nat) : Byte := u.bytes[a]?.getD 0

/-- Fault entry: the status becomes `Faulted(F, info, w, ia)` and the frame's batch ends (R110); the published
outputs and the configuration stay (R141, R20); V, I, PC, Stack, DT, ST, Mem, FB and Keys hold unspecified
values (R115), which are free. There is no handler, no saved register and no return (R122). -/
def State.enterFault (s : State) (r : FaultReport) : State :=
  let u := Config.freeResidue s r
  { s with
    v := u.v, i := u.i, pc := u.pc, stack := u.stack.take s.cfg.stackCapacity, dt := u.dt, st := u.st
    mem := Memory.ofBytes s.cfg u.byteAt
    fb := u.fb, keys := u.keys
    status := .faulted r, phase := .top }

/-- Fault entry of a draw: it raises before any write, so no pixel has changed (R101, R115, D15). -/
def State.enterDrawFault (s : State) (r : FaultReport) : State := (s.enterFault r).setFb s.fb

/-- The report of a fault raised by a rule: PC already holds `ia + 2` (R13), and the instruction's word is
the one it was decoded from (R110). -/
def State.report (s : State) (i : Instr) (f : Fault) : FaultReport := ⟨f, some (encode i), s.pc - 2⟩

/-- How a rule ends: with its next state, or by taking the fault it raised (R12, R110). -/
def State.conclude (s : State) (i : Instr) : Except Fault State → Host.Outcome State Fault Refusal
  | .ok t => .next t
  | .error f => .next (s.enterFault (s.report i f))

/-! ## Load (R136, R137) -/

/-- What a load can answer instead of a machine (R118, R137). -/
inductive LoadError where
  /-- The image is longer than 3584 bytes; no byte is written. -/
  | imageTooLarge (length : Nat)
deriving DecidableEq, Repr

/-- Write bytes from an address up, all inside the address space. -/
def State.fill (s : State) (a : Nat) : List Byte → State
  | [] => s
  | b :: bs => (s.setByte a b).fill (a + 1) bs

/-- `load(image)`: clear 0x200 .. 0xFFF, then copy the image to 0x200; an image that does not fit is rejected
(R136, R137). -/
def State.load (s : State) (image : List Byte) : Except LoadError State :=
  if imageFits image then .ok ((s.fill progBase (List.replicate maxImage 0)).fill progBase image)
  else .error (.imageTooLarge image.length)

end Sys2Proof.Machine
end

