-- ==== Sys2Proof/Machine/Flags.lean ====
section
/-! DEFINITION. The flag conditions of R23 and the order in which a result and a flag are written (D8). -/

namespace Sys2Proof.Machine

/-- 8XY4: the exact sum exceeds 255 (R87). -/
def carry (a b : Byte) : Bool := decide (255 < a.toNat + b.toNat)

/-- 8XY5 and 8XY7: the minuend is not below the subtrahend (R88, R90, D10). -/
def notBorrow (minuend subtrahend : Byte) : Bool := decide (subtrahend.toNat ≤ minuend.toNat)

/-- 8XY6: the bit shifted out to the right (R89). -/
def shiftedOutRight (src : Byte) : Bool := src.getLsbD 0

/-- 8XYE: the bit shifted out to the left (R91). -/
def shiftedOutLeft (src : Byte) : Bool := src.getLsbD 7

/-- FX1E: the exact sum exceeds 12 bits (R94). -/
def indexOverflow (i : Word) (b : Byte) : Bool := decide (0xFFF < i.toNat + b.toNat)

/-- The result to VX, then the flag to VF, so that with X = F the flag stays (R23, D8). -/
def State.setResult (s : State) (x : Reg) (result : Byte) (flag : Bool) : State :=
  (s.setV x result).setFlag flag

end Sys2Proof.Machine
end

