-- ==== Sys2Proof/Machine/Operands.lean ====
section
/-! DEFINITION. The operand forms: register selectors and immediates are read directly (R67, R68); the forms
that depend on the configuration or need arithmetic stand here. -/

namespace Sys2Proof.Machine

/-- The value 8XY6 and 8XYE shift: VY under the legacy shift, else VX (R89, R91). -/
def State.shiftSource (s : State) (x y : Reg) : Byte := if s.cfg.legacyShift then s.getV y else s.getV x

/-- The offset register of BNNN: V0, or VX with X the top nibble of NNN under `jump_vx` (R80). -/
def State.jumpOffset (s : State) (nnn : Addr12) : Byte :=
  if s.cfg.jumpVx then s.getV ⟨(nnn.extractLsb' 8 4).toNat, (nnn.extractLsb' 8 4).isLt⟩ else s.getV 0

/-- The effective address `I + k`, formed without wrap (R49; spec/42_index_memory.md). -/
def State.ea (s : State) (k : Nat) : Nat := s.i.toNat + k

/-- The address of the glyph of a value's low nibble (R95). -/
def State.glyphAddr (s : State) (b : Byte) : Word := zext12 s.cfg.fontBase + BitVec.ofNat 16 (5 * (b.toNat % 16))

/-- The decimal digits of a byte: hundreds, tens, ones (R96). -/
def bcdDigits (b : Byte) : List Byte :=
  [BitVec.ofNat 8 (b.toNat / 100), BitVec.ofNat 8 (b.toNat / 10 % 10), BitVec.ofNat 8 (b.toNat % 10)]

/-- `if cfg.index_advance then I <- I + X + 1` (R97, R98). -/
def State.advanceI (s : State) (x : Reg) : State :=
  if s.cfg.indexAdvance then s.setI (s.i + BitVec.ofNat 16 (x.val + 1)) else s

end Sys2Proof.Machine
end

