-- ==== Sys2Proof/Machine/Alu.lean ====
section
/-! DEFINITION. The register loads and the arithmetic of spec/41_alu.md: 6XNN, 7XNN, 8XY0 to 8XYE, CXNN. Both
operands are read before any write (D8). -/

namespace Sys2Proof.Machine

/-- 6XNN (R81). -/
def execLdImm (x : Reg) (nn : Byte) (s : State) : Host.Outcome State Fault Refusal :=
  .next (s.setV x nn)

/-- 7XNN (R82). -/
def execAddImm (x : Reg) (nn : Byte) (s : State) : Host.Outcome State Fault Refusal :=
  .next (s.setV x (s.getV x + nn))

/-- 8XY0 (R83). -/
def execLdReg (x y : Reg) (s : State) : Host.Outcome State Fault Refusal :=
  .next (s.setV x (s.getV y))

/-- 8XY1 (R84). -/
def execOrReg (x y : Reg) (s : State) : Host.Outcome State Fault Refusal :=
  .next (s.setV x (s.getV x ||| s.getV y))

/-- 8XY2 (R85). -/
def execAndReg (x y : Reg) (s : State) : Host.Outcome State Fault Refusal :=
  .next (s.setV x (s.getV x &&& s.getV y))

/-- 8XY3 (R86). -/
def execXorReg (x y : Reg) (s : State) : Host.Outcome State Fault Refusal :=
  .next (s.setV x (s.getV x ^^^ s.getV y))

/-- 8XY4 (R87). -/
def execAddReg (x y : Reg) (s : State) : Host.Outcome State Fault Refusal :=
  let a := s.getV x
  let b := s.getV y
  .next (s.setResult x (a + b) (carry a b))

/-- 8XY5 (R88). -/
def execSubReg (x y : Reg) (s : State) : Host.Outcome State Fault Refusal :=
  let a := s.getV x
  let b := s.getV y
  .next (s.setResult x (a - b) (notBorrow a b))

/-- 8XY6 (R89). -/
def execShrReg (x y : Reg) (s : State) : Host.Outcome State Fault Refusal :=
  let src := s.shiftSource x y
  .next (s.setResult x (src >>> 1) (shiftedOutRight src))

/-- 8XY7 (R90). -/
def execSubnReg (x y : Reg) (s : State) : Host.Outcome State Fault Refusal :=
  let a := s.getV x
  let b := s.getV y
  .next (s.setResult x (b - a) (notBorrow b a))

/-- 8XYE (R91). -/
def execShlReg (x y : Reg) (s : State) : Host.Outcome State Fault Refusal :=
  let src := s.shiftSource x y
  .next (s.setResult x (src <<< 1) (shiftedOutLeft src))

/-- CXNN (R92). -/
def execRnd (x : Reg) (nn : Byte) (s : State) : Host.Outcome State Fault Refusal :=
  .next (s.afterDraw.setV x (s.nextRandom &&& nn))

end Sys2Proof.Machine
end

