-- ==== Sys2Proof/Machine/Control.lean ====
section
/-! DEFINITION. Control transfer, spec/40_control.md: 00EE, 1NNN, 2NNN, 3XNN, 4XNN, 5XY0, 9XY0, BNNN. PC already
holds the instruction's address plus 2 (R13, R61). -/

namespace Sys2Proof.Machine

/-- 00EE (R73). -/
def execRet (s : State) : Host.Outcome State Fault Refusal :=
  s.conclude .ret
    (match s.pop with
    | .ok (a, t) => .ok (t.setPc a)
    | .error f => .error f)

/-- 1NNN (R74). -/
def execJp (nnn : Addr12) (s : State) : Host.Outcome State Fault Refusal :=
  .next (s.setPc (zext12 nnn))

/-- 2NNN (R75). -/
def execCall (nnn : Addr12) (s : State) : Host.Outcome State Fault Refusal :=
  s.conclude (.call nnn)
    (match s.push s.pc with
    | .ok t => .ok (t.setPc (zext12 nnn))
    | .error f => .error f)

/-- 3XNN (R76). -/
def execSeImm (x : Reg) (nn : Byte) (s : State) : Host.Outcome State Fault Refusal :=
  .next (s.skipIf (s.getV x == nn))

/-- 4XNN (R77). -/
def execSneImm (x : Reg) (nn : Byte) (s : State) : Host.Outcome State Fault Refusal :=
  .next (s.skipIf (s.getV x != nn))

/-- 5XY0 (R78). -/
def execSeReg (x y : Reg) (s : State) : Host.Outcome State Fault Refusal :=
  .next (s.skipIf (s.getV x == s.getV y))

/-- 9XY0 (R79). -/
def execSneReg (x y : Reg) (s : State) : Host.Outcome State Fault Refusal :=
  .next (s.skipIf (s.getV x != s.getV y))

/-- BNNN (R80): the sum is not masked (D24). -/
def execJpOff (nnn : Addr12) (s : State) : Host.Outcome State Fault Refusal :=
  .next (s.setPc (zext12 nnn + zext8 (s.jumpOffset nnn)))

end Sys2Proof.Machine
end

