-- ==== Sys2Proof/Machine/Display.lean ====
section
/-! DEFINITION. The framebuffer instructions of spec/43_display.md: 00E0 and DXYN. -/

namespace Sys2Proof.Machine

/-- 00E0 (R99). -/
def execCls (s : State) : Host.Outcome State Fault Refusal :=
  .next (s.setFb Framebuffer.clear)

/-- The draw of sprite rows already read, anchored at VX, VY: pixels, then VF (R101). -/
def State.drawRows (s : State) (x y : Reg) (rows : List Byte) : State :=
  let d := toggleAll (drawTargets s.cfg.spriteWrap (s.getV x) (s.getV y) rows) s.fb false
  (s.setFb d.1).setFlag d.2

/-- DXYN (R101): all rows are read before any pixel changes (D15). -/
def execDrw (x y : Reg) (n : Nibble) (s : State) : Host.Outcome State Fault Refusal :=
  match s.readBytes (s.ea 0) n.toNat with
  | .ok rows => .next (s.drawRows x y rows)
  | .error f => .next (s.enterDrawFault (s.report (.drw x y n) f))

end Sys2Proof.Machine
end

