-- ==== Sys2Proof/Machine/IndexMemory.lean ====
section
/-! DEFINITION. The index register and the memory instructions of spec/42_index_memory.md: ANNN, FX1E, FX29,
FX33, FX55, FX65. -/

namespace Sys2Proof.Machine

/-- ANNN (R93). -/
def execLdI (nnn : Addr12) (s : State) : Host.Outcome State Fault Refusal :=
  .next (s.setI (zext12 nnn))

/-- FX1E (R94). -/
def execAddI (x : Reg) (s : State) : Host.Outcome State Fault Refusal :=
  let b := s.getV x
  .next ((s.setI (BitVec.ofNat 16 ((s.i.toNat + b.toNat) % 0x1000))).setFlag (indexOverflow s.i b))

/-- FX29 (R95). -/
def execLdFont (x : Reg) (s : State) : Host.Outcome State Fault Refusal :=
  .next (s.setI (s.glyphAddr (s.getV x)))

/-- FX33 (R96). -/
def execStoreBcd (x : Reg) (s : State) : Host.Outcome State Fault Refusal :=
  s.conclude (.storeBcd x) (s.writeBytes (s.ea 0) (bcdDigits (s.getV x)))

/-- FX55 (R97). -/
def execStoreRegs (x : Reg) (s : State) : Host.Outcome State Fault Refusal :=
  s.conclude (.storeRegs x)
    (match s.writeBytes (s.ea 0) (s.regsUpTo x) with
    | .ok t => .ok (t.advanceI x)
    | .error f => .error f)

/-- FX65 (R98). -/
def execLoadRegs (x : Reg) (s : State) : Host.Outcome State Fault Refusal :=
  s.conclude (.loadRegs x)
    (match s.readBytes (s.ea 0) (x.val + 1) with
    | .ok bs => .ok ((s.loadRegs bs).advanceI x)
    | .error f => .error f)

end Sys2Proof.Machine
end

