-- ==== Sys2Proof/Machine/KeysTimers.lean ====
section
/-! DEFINITION. The key and timer instructions of spec/44_timers_input.md: EX9E, EXA1, FX0A, FX07, FX15, FX18. -/

namespace Sys2Proof.Machine

/-- The key numbered by a register value, or the fault of EX9E and EXA1 (R104, R105, R117). -/
def keyOfByte (b : Byte) : Except Fault Key :=
  if h : b.toNat < 16 then .ok ⟨b.toNat, h⟩ else .error (.keyIndexOutOfRange b)

/-- EX9E (R104). -/
def execSkp (x : Reg) (s : State) : Host.Outcome State Fault Refusal :=
  s.conclude (.skp x)
    (match keyOfByte (s.getV x) with
    | .ok k => .ok (s.skipIf (s.keyDown k))
    | .error f => .error f)

/-- EXA1 (R105). -/
def execSknp (x : Reg) (s : State) : Host.Outcome State Fault Refusal :=
  s.conclude (.sknp x)
    (match keyOfByte (s.getV x) with
    | .ok k => .ok (s.skipIf (!(s.keyDown k)))
    | .error f => .error f)

/-- FX0A (R106): with no key pressed PC goes back to the instruction itself. -/
def execWaitKey (x : Reg) (s : State) : Host.Outcome State Fault Refusal :=
  match keySelect s.cfg s.keys with
  | none => .next (s.setPc (s.pc - 2))
  | some k => .next (s.setV x (BitVec.ofNat 8 k.val))

/-- FX07 (R107). -/
def execReadDt (x : Reg) (s : State) : Host.Outcome State Fault Refusal :=
  .next (s.setV x s.dt)

/-- FX15 (R108). -/
def execSetDt (x : Reg) (s : State) : Host.Outcome State Fault Refusal :=
  .next (s.setDt (s.getV x))

/-- FX18 (R109). -/
def execSetSt (x : Reg) (s : State) : Host.Outcome State Fault Refusal :=
  .next (s.setSt (s.getV x))

end Sys2Proof.Machine
end

