-- ==== Sys2Proof/Machine/Frame.lean ====
section
/-! DEFINITION. One instruction (R61), the parts of a frame (R123, R124, R126 to R128) and the frame sequence of
R139, once as the spec writes it (`frame`) and once as the single steps the machine takes (`frameStep`). -/

namespace Sys2Proof.Machine

/-! ## One instruction -/

/-- `step()` of R61: fetch, advance PC, decode, execute. A fetch that faults records no word (R110); a fetch fault
comes before a decode error, and that before a fault of the instruction (R120). -/
def runInstruction (s : State) : Host.Outcome State Fault Refusal :=
  match s.fetch16 s.pc with
  | .error f => .next (s.enterFault ⟨f, none, s.pc⟩)
  | .ok w =>
    match decode w with
    | .error _ => .next (s.enterFault ⟨.decodeError w, some w, s.pc⟩)
    | .ok i => exec i (s.setPc (s.pc + 2))

/-! ## The parts of a frame -/

/-- One tick of one timer: down by one, staying at 0 (R124). -/
def tickByte (b : Byte) : Byte := if b = 0 then 0 else b - 1

/-- `tick()` (R124). -/
def State.tick (s : State) : State := { s with dt := tickByte s.dt, st := tickByte s.st }

/-- `Keys <- keys_in` (R128). -/
def State.latchKeys (s : State) (keysIn : BitVec 16) : State := { s with keys := keysIn }

/-- `Status <- Halted` (R123). -/
def State.halt (s : State) : State := { s with status := .halted }

/-- `fb_out <- FB; tone_active <- (ST != 0)`, which ends the frame (R126, R127). -/
def State.publish (s : State) : State := { s with fbOut := s.fb, toneActive := s.st != 0, phase := .top }

/-- The place in the frame sequence. -/
def State.setPhase (s : State) (p : Phase) : State := { s with phase := p }

/-- The inputs the host presents at the top of the coming frame: the next supplied ones, else free ones (R128,
R129, D28, D29; log entry 4). -/
def State.frameInput (s : State) : FrameInput :=
  match s.frameInputs with
  | inp :: _ => inp
  | [] => ⟨Config.freeKeysIn s.frameCount, Config.freeHaltReq s.frameCount⟩

/-- The inputs of this frame have been sampled. -/
def State.afterInput (s : State) : State :=
  { s with frameInputs := s.frameInputs.tail, frameCount := s.frameCount + 1 }

/-- The top of a frame: the halt request, else the tick and the key latch, and the batch begins (R139). -/
def State.beginFrame (s : State) (inp : FrameInput) : State :=
  if inp.haltReq then s.halt
  else (s.tick.latchKeys inp.keysIn).setPhase (.batch s.cfg.instrPerFrame)

/-! ## The frame sequence, a step at a time -/

/-- One step of the machine. In a frame's batch it is one instruction (R61), at the top of a frame the halt check,
tick and key latch, after the last instruction of a batch the publication (R139). A halted or faulted
machine stays as it is (R40, R139). -/
def frameStep (s : State) : Host.Outcome State Fault Refusal :=
  match s.status with
  | .running =>
    match s.phase with
    | .top => .next (s.afterInput.beginFrame s.frameInput)
    | .batch 0 => .next s.publish
    | .batch (left + 1) => runInstruction (s.setPhase (.batch left))
  | .halted => .next s
  | .faulted _ => .next s

/-! ## The frame sequence as R139 writes it -/

/-- `repeat n times: step(); if Status != Running then return`, then the publication (R139, R141). -/
def runBatch : Nat → State → Host.Outcome State Fault Refusal
  | 0, s => .next s.publish
  | left + 1, s =>
    match runInstruction (s.setPhase (.batch left)) with
    | .next t => if t.status = .running then runBatch left t else .next t
    | .fault f => .fault f
    | .refused r => .refused r

/-- `frame(keys_in, halt_req)` (R139). -/
def frame (keysIn : BitVec 16) (haltReq : Bool) (s : State) : Host.Outcome State Fault Refusal :=
  if s.status = .running then
    if haltReq then .next s.halt
    else runBatch s.cfg.instrPerFrame (s.tick.latchKeys keysIn)
  else .next s

/-! ## Placing one instruction for the host -/

/-- The batch phase in which the next step runs an instruction. -/
def Phase.running : Phase → Phase
  | .batch (left + 1) => .batch (left + 1)
  | _ => .batch 1

/-- The address the word is placed at: PC where a fetch from it is in range, else 0x200. -/
def State.fetchAddr (s : State) : Word := if s.pc.toNat ≤ 0xFFE then s.pc else 0x200

/-- Make the next step fetch and run a word: it stands at PC, the machine runs and its batch has an instruction
left (log entry 7). -/
def State.placeWord (s : State) (w : Word) : State :=
  { (s.setByte s.fetchAddr.toNat (hiByte w)).setByte (s.fetchAddr.toNat + 1) (loByte w) with
    pc := s.fetchAddr, status := .running, phase := s.phase.running }

end Sys2Proof.Machine
end

