-- ==== Sys2Proof/Machine/Step.lean ====
section
/-! DEFINITION. The step of the machine and the placing of one instruction, under the host's names. -/

namespace Sys2Proof.Machine

/-- One step of the machine (`frameStep`): one part of the frame sequence of R139, an instruction (R61) in a batch. -/
def step (s : State) : Host.Outcome State Fault Refusal := frameStep s

/-- The state with a table word placed so that the very next step runs it (`State.placeWord`). -/
def State.withFetchWord (s : State) (nbits w : Nat) : State := s.placeWord (tableWord nbits w)

end Sys2Proof.Machine
end

