-- ==== Sys2Proof/Safety.lean ====
section
/-! DEFINITION. The terms in which claims are made: what a safe state is, the invariant of the machine, what a
fault entry leaves known, what an instruction leaves unchanged, and R100's placement of a sprite's pixels said
without the machine's own drawing functions. -/

namespace Sys2Proof.Machine

/-- Whether a fatal error stopped the block (R40). -/
def Status.isFaulted : Status → Bool
  | .faulted _ => true
  | .running => false
  | .halted => false

/-- A safe state: no fault has stopped the block. A safe run is one whose states are all safe. -/
def State.Safe (s : State) : Prop := s.status.isFaulted = false

/-- The invariant of the machine. The ranges of I, PC and the return addresses (R25, R28, R73) are asked of safe
states only, since R115 leaves the values after a fault unspecified. -/
structure State.Inv (s : State) : Prop where
  /-- The configuration is legal (R5). -/
  cfg_legal : s.cfg.wellFormed = true
  /-- Memory has its canonical form. -/
  mem_canonical : Memory.wf s.cfg s.mem
  /-- The stack never exceeds its capacity (R20, R26). -/
  stack_bounded : s.stack.length ≤ s.cfg.stackCapacity
  /-- I is at most 0x1000 (R28). -/
  index_range : s.Safe → s.i.toNat ≤ 0x1000
  /-- PC is at most 0x10FE (R25). -/
  pc_range : s.Safe → s.pc.toNat ≤ 0x10FE
  /-- A return address is at most 0x1000 (R73). -/
  returns_range : s.Safe → ∀ a ∈ s.stack, a.toNat ≤ 0x1000
  /-- No more instructions are left than a batch has (R140). -/
  batch_range : ∀ left, s.phase = .batch left → left ≤ s.cfg.instrPerFrame

/-- The state `t` after the fault `r` taken in the state `s`: the status records the report (R110, whose address is
the faulting instruction's by D7), the outputs and the configuration stay (R141, R20), the frame's batch has ended. Nothing else is known (R115). -/
structure FaultTaken (r : FaultReport) (s t : State) : Prop where
  status : t.status = .faulted r
  cfg : t.cfg = s.cfg
  fbOut : t.fbOut = s.fbOut
  toneActive : t.toneActive = s.toneActive
  phase : t.phase = .top

/-- The parts of the state an instruction may write; what is not named is kept (`Keeps`). -/
structure Writes where
  regs : List Reg := []
  pc : Bool := false
  index : Bool := false
  stack : Bool := false
  dt : Bool := false
  st : Bool := false
  fb : Bool := false
  /-- The addresses that may be stored to. -/
  mem : Nat → Bool := fun _ => false
  /-- The random source's bookkeeping. -/
  rng : Bool := false

/-- The frame of an instruction: from `s` to `t` only the parts named in `w` may have changed. -/
structure Keeps (w : Writes) (s t : State) : Prop where
  regs : ∀ r, r ∉ w.regs → t.getV r = s.getV r
  pc : w.pc = false → t.pc = s.pc
  index : w.index = false → t.i = s.i
  stack : w.stack = false → t.stack = s.stack
  dt : w.dt = false → t.dt = s.dt
  st : w.st = false → t.st = s.st
  fb : w.fb = false → t.fb = s.fb
  mem : ∀ a, w.mem a = false → t.byteAt a = s.byteAt a
  rng : w.rng = false → t.rngBytes = s.rngBytes ∧ t.drawCount = s.drawCount
  keys : t.keys = s.keys
  status : t.status = s.status
  cfg : t.cfg = s.cfg
  outputs : t.fbOut = s.fbOut ∧ t.toneActive = s.toneActive
  frame : t.phase = s.phase ∧ t.frameInputs = s.frameInputs ∧ t.frameCount = s.frameCount

/-- R100: the pixel (r, c) of a sprite anchored at `vx`, `vy` lands at row `p.1`, column `p.2`. -/
def LandsAt (wrap : Bool) (vx vy : Byte) (r c : Nat) (p : Place) : Prop :=
  if wrap then p.1.val = (vy.toNat % 32 + r) % 32 ∧ p.2.val = (vx.toNat % 64 + c) % 64
  else p.1.val = vy.toNat % 32 + r ∧ p.2.val = vx.toNat % 64 + c

/-- R101: the draw DXYN started in `s` toggles the pixel `p`: a set bit of its N sprite bytes at I lands there (bit
7 leftmost, R46). -/
def SpriteCovers (s : State) (x y : Reg) (n : Nibble) (p : Place) : Prop :=
  ∃ r c, r < n.toNat ∧ c < 8 ∧ (s.byteAt (s.i.toNat + r)).getLsbD (7 - c) = true ∧
    LandsAt s.cfg.spriteWrap (s.getV x) (s.getV y) r c p

/-- The first byte address above 0xFFF of an access that starts at `a` and runs past the end (R111). -/
def firstOutOfRange (a : Nat) : Nat := max a memSize

end Sys2Proof.Machine
end

