-- ==== Sys2Proof/Certificates/Slice0/Obligations.lean ====
section
/-! DEFINITION. The statements for the provers, from the numbered rules of spec/. A rule that itself rests on a
decision of spec/92_eei_decisions.md (D<n>) or on the spec's general knowledge is said so in the docstring. Where
a statement is about an instruction, PC already holds the instruction's address plus 2 (R13, R61). -/

open Sys2Proof Sys2Proof.Machine

/-! ## Encoding -/

/-- The decoder gives back every encoded instruction, at every value of every operand (R62, R63, R66). -/
def Obligations.DecodeOfEncodeIsTheInstruction : Prop :=
  ∀ i : Instr, decode (encode i) = .ok i

/-- Each word has at most one meaning: an instruction read from a word is encoded as that word (R63, R66). -/
def Obligations.EncodeOfDecodeIsTheWord : Prop :=
  ∀ (w : Word) (i : Instr), decode w = .ok i → encode i = w

/-- "No two rows match the same word." (R63) -/
def Obligations.NoTwoOpcodeRowsMatchOneWord : Prop :=
  ∀ (w : Word) (j k : Fin 34) (r q : OpcodeRow), opcodeRows[j.val]? = some r → opcodeRows[k.val]? = some q →
    r.accepts w = true → q.accepts w = true → j = k

/-- A word is the instruction of a row exactly when `w & mask == match` (R63), and the decode tree of R62 says the
same. The sub-opcodes of OR, AND and XOR are the spec's general knowledge (K3, log entry 17). -/
def Obligations.DecodeAgreesWithTheOpcodeMap : Prop :=
  ∀ (w : Word) (k : Fin 34),
    (∃ r, opcodeRows[k.val]? = some r ∧ r.accepts w = true) ↔ ∃ i, decode w = .ok i ∧ i.rowIndex = k.val

/-- A word no row matches is illegal (R64; that 5XYN and 9XYN with N ≠ 0 are such words is D22). -/
def Obligations.WordsOfNoRowAreIllegal : Prop :=
  ∀ w : Word, decode w = .error (.illegalWord w) ↔ ∀ r ∈ opcodeRows, r.accepts w = false

/-- Eight words written out from the encodings of R63, the examples of R69 among them; they are of the families 0, 1,
6, 8, D, E and F, two of them of F. That 0x5121 is illegal is D22 (log entry 26). -/
def Obligations.SampleWordsDecode : Prop :=
  decode 0x6A2F = .ok (.ldImm 0xA 0x2F) ∧ decode 0xD015 = .ok (.drw 0 1 5) ∧
  decode 0xF355 = .ok (.storeRegs 3) ∧ decode 0x00E0 = .ok .cls ∧ decode 0x1234 = .ok (.jp 0x234) ∧
  decode 0x8416 = .ok (.shrReg 4 1) ∧ decode 0xE19E = .ok (.skp 1) ∧ decode 0xF30A = .ok (.waitKey 3) ∧
  decode 0x5121 = .error (.illegalWord 0x5121)

/-! ## Reset and load -/

/-- A constructed machine (R133, R134): registers and memory as constructed, for every legal configuration. The
zeros of I, the timers, the framebuffer and the keys, and the empty stack, are D21. -/
def Obligations.ConstructedMachine : Prop :=
  ∀ cfg : Config, cfg.wellFormed = true → ∀ s, s = State.construct cfg →
    (∀ r, s.getV r = 0) ∧ s.i = 0 ∧ s.pc = 0x200 ∧ s.stack = [] ∧ s.dt = 0 ∧ s.st = 0 ∧
    (∀ p, s.pixel p = false) ∧ (∀ k, s.keyDown k = false) ∧ s.status = .running ∧ s.cfg = cfg ∧
    (∀ j : Fin 80, s.byteAt (cfg.fontBase.toNat + j.val) = cfg.fontData[j.val]) ∧
    (∀ a, a < cfg.fontBase.toNat ∨ cfg.fontBase.toNat + 80 ≤ a → s.byteAt a = 0)

/-- Reset is the construction of the default machine (R5, R133): the four quirk defaults, the font's base (D18)
and the stack capacity, whose 16 is D4 (log entry 22); the batch size is free (log entry 5). -/
def Obligations.ResetIsTheDefaultMachine : Prop :=
  State.reset = State.construct State.reset.cfg ∧ State.reset.cfg.legacyShift = true ∧
  State.reset.cfg.jumpVx = false ∧ State.reset.cfg.indexAdvance = false ∧
  State.reset.cfg.spriteWrap = false ∧ State.reset.cfg.fontBase = 0x050 ∧
  State.reset.cfg.stackCapacity = 16 ∧ 1 ≤ State.reset.cfg.instrPerFrame

/-- The load (R136, R137): 0x200 to 0xFFF hold the image and then zeros, nothing below 0x200 and no register changes;
an image of more than 3584 bytes is rejected with its length. That it clears before it copies is D17, rejecting is
D16. -/
def Obligations.LoadPlacesTheImageOrRejectsIt : Prop :=
  ∀ (s : State) (image : List Byte),
    (image.length ≤ 3584 → ∃ t, s.load image = .ok t ∧
      (∀ a, a < 0x200 → t.byteAt a = s.byteAt a) ∧
      (∀ j (h : j < image.length), t.byteAt (0x200 + j) = image[j]) ∧
      (∀ a, 0x200 + image.length ≤ a → a ≤ 0xFFF → t.byteAt a = 0) ∧
      Keeps { mem := fun a => decide (0x200 ≤ a ∧ a ≤ 0xFFF) } s t) ∧
    (3584 < image.length → s.load image = .error (.imageTooLarge image.length))

/-! ## The step -/

/-- A step in a frame's batch runs the decoded instruction (R61): PC advanced by 2 before it, one instruction of the
batch used up (R140). A fetch that faults records no word (R110), an illegal word is a decode error (R116). The
address recorded is D7, the fetch fault D5, the use of the batch a step at a time log entry 8. -/
def Obligations.StepRunsTheDecodedInstruction : Prop :=
  ∀ (s : State) (left : Nat), s.status = .running → s.phase = .batch (left + 1) →
    ∀ u, u = s.setPhase (.batch left) →
    (s.pc.toNat ≤ 0xFFE → ∀ w, w = wordOfBytes (s.byteAt s.pc.toNat) (s.byteAt (s.pc.toNat + 1)) →
      (∀ i, decode w = .ok i → step s = exec i (u.setPc (s.pc + 2))) ∧
      (∀ e, decode w = .error e →
        ∃ t, step s = .next t ∧ FaultTaken ⟨.decodeError w, some w, s.pc⟩ s t)) ∧
    (0xFFE < s.pc.toNat → ∃ t, step s = .next t ∧
      FaultTaken ⟨.addressOutOfRange (if 0xFFF < s.pc.toNat then s.pc.toNat else s.pc.toNat + 1), none, s.pc⟩ s t)

/-- A placed word is the very next instruction (R48, R61; the placing is log entry 7), and its placing changes no
register, no device and no byte but its own two. -/
def Obligations.PlacedWordRunsNext : Prop :=
  ∀ (s : State) (w : Word) (i : Instr), decode w = .ok i →
    ∃ left, (s.withFetchWord 16 w.toNat).phase = .batch (left + 1) ∧
      step (s.withFetchWord 16 w.toNat) = exec i
        (((s.withFetchWord 16 w.toNat).setPhase (.batch left)).setPc ((s.withFetchWord 16 w.toNat).pc + 2)) ∧
      (∀ r, (s.withFetchWord 16 w.toNat).getV r = s.getV r) ∧
      (s.withFetchWord 16 w.toNat).i = s.i ∧ (s.withFetchWord 16 w.toNat).stack = s.stack ∧
      (∀ a, a ≠ (s.withFetchWord 16 w.toNat).pc.toNat → a ≠ (s.withFetchWord 16 w.toNat).pc.toNat + 1 →
        (s.withFetchWord 16 w.toNat).byteAt a = s.byteAt a)

/-- No step is refused and none leaves the machine without a next state: a fault is a next state whose status
is Faulted (R71, R110; log entry 9). -/
def Obligations.EveryStepHasANextState : Prop :=
  ∀ s : State, ∃ t, step s = .next t

/-- "(terminal)" (R40, R122): a halted or a faulted machine stays as it is (log entry
9). -/
def Obligations.StoppedMachineStays : Prop :=
  ∀ s : State, s.status ≠ .running → step s = .next s

/-! ## Control transfer -/

/-- 1NNN (R74): its encoding and its effect. -/
def Obligations.JumpSetsPc : Prop :=
  ∀ (nnn : Addr12) (s : State), decode (formatFA 0x1 nnn) = .ok (.jp nnn) ∧
    ∃ t, exec (.jp nnn) s = .next t ∧ t.pc.toNat = nnn.toNat ∧ Keeps { pc := true } s t

/-- 2NNN with room on the stack, and on a full stack (R75, R113; the fixed capacity is D4). -/
def Obligations.CallPushesAndJumps : Prop :=
  ∀ (nnn : Addr12) (s : State),
    (s.stack.length ≠ s.cfg.stackCapacity → ∃ t, exec (.call nnn) s = .next t ∧
      t.pc.toNat = nnn.toNat ∧ t.stack = s.stack ++ [s.pc] ∧ Keeps { pc := true, stack := true } s t) ∧
    (s.stack.length = s.cfg.stackCapacity → ∃ t, exec (.call nnn) s = .next t ∧
      FaultTaken ⟨.stackOverflow s.stack.length, some (encode (.call nnn)), s.pc - 2⟩ s t)

/-- 00EE: its encoding, its effect with a return address, and its fault on an empty stack (R73, R112;
that the report names the instruction's own address is D7). -/
def Obligations.ReturnPops : Prop :=
  ∀ s : State, decode 0x00EE = .ok .ret ∧
    (∀ (rest : List Word) (a : Word), s.stack = rest ++ [a] → ∃ t, exec .ret s = .next t ∧
      t.pc = a ∧ t.stack = rest ∧ Keeps { pc := true, stack := true } s t) ∧
    (s.stack = [] → ∃ t, exec .ret s = .next t ∧
      FaultTaken ⟨.stackUnderflow, some 0x00EE, s.pc - 2⟩ s t)

/-- "2NNN from address P followed eventually by 00EE restores the program counter to P+2" (R75): whatever the
subroutine did, if it left the stack as it found it. -/
def Obligations.ReturnComesBackAfterTheCall : Prop :=
  ∀ (nnn : Addr12) (s t u : State), s.stack.length ≠ s.cfg.stackCapacity → exec (.call nnn) s = .next t →
    u.stack = t.stack → ∃ w, exec .ret u = .next w ∧ w.pc = s.pc ∧ w.stack = s.stack

/-- 3XNN (R76) and 4XNN (R77): their encodings and their effects. -/
def Obligations.SkipsOnImmediate : Prop :=
  ∀ (x : Reg) (nn : Byte) (s : State),
    decode (formatFI 0x3 x nn) = .ok (.seImm x nn) ∧ decode (formatFI 0x4 x nn) = .ok (.sneImm x nn) ∧
    (∃ t, exec (.seImm x nn) s = .next t ∧
      t.pc = (if s.getV x = nn then s.pc + 2 else s.pc) ∧ Keeps { pc := true } s t) ∧
    (∃ t, exec (.sneImm x nn) s = .next t ∧
      t.pc = (if s.getV x ≠ nn then s.pc + 2 else s.pc) ∧ Keeps { pc := true } s t)

/-- 5XY0 (R78) and 9XY0 (R79). -/
def Obligations.SkipsOnRegister : Prop :=
  ∀ (x y : Reg) (s : State),
    (∃ t, exec (.seReg x y) s = .next t ∧
      t.pc = (if s.getV x = s.getV y then s.pc + 2 else s.pc) ∧ Keeps { pc := true } s t) ∧
    (∃ t, exec (.sneReg x y) s = .next t ∧
      t.pc = (if s.getV x ≠ s.getV y then s.pc + 2 else s.pc) ∧ Keeps { pc := true } s t)

/-- BNNN (R80): NNN plus V0, or plus VX with X the top four bits of NNN; the sum is not masked (D24). -/
def Obligations.JumpWithOffset : Prop :=
  ∀ (nnn : Addr12) (s : State), ∃ t, exec (.jpOff nnn) s = .next t ∧
    (s.cfg.jumpVx = false → t.pc.toNat = nnn.toNat + (s.getV 0).toNat) ∧
    (s.cfg.jumpVx = true → ∀ x : Reg, x.val = nnn.toNat / 256 → t.pc.toNat = nnn.toNat + (s.getV x).toNat) ∧
    Keeps { pc := true } s t

/-! ## Loads and arithmetic -/

/-- 6XNN (R81) and 7XNN (R82): their encodings and effects; the sum wraps and no flag is set. -/
def Obligations.LoadAndAddImmediate : Prop :=
  ∀ (x : Reg) (nn : Byte) (s : State),
    decode (formatFI 0x6 x nn) = .ok (.ldImm x nn) ∧ decode (formatFI 0x7 x nn) = .ok (.addImm x nn) ∧
    (∃ t, exec (.ldImm x nn) s = .next t ∧ t.getV x = nn ∧ Keeps { regs := [x] } s t) ∧
    (∃ t, exec (.addImm x nn) s = .next t ∧
      (t.getV x).toNat = ((s.getV x).toNat + nn.toNat) % 256 ∧ Keeps { regs := [x] } s t)

/-- 8XY0 (R83): its encoding and its effect. -/
def Obligations.AssignCopies : Prop :=
  ∀ (x y : Reg) (s : State), decode (formatFR 0x8 x y 0x0) = .ok (.ldReg x y) ∧
    ∃ t, exec (.ldReg x y) s = .next t ∧ t.getV x = s.getV y ∧ Keeps { regs := [x] } s t

/-- 8XY1, 8XY2, 8XY3 (R84, R85, R86), bit by bit. That VF is not written is D9. -/
def Obligations.BitwiseOperations : Prop :=
  ∀ (x y : Reg) (s : State),
    (∃ t, exec (.orReg x y) s = .next t ∧ Keeps { regs := [x] } s t ∧
      ∀ b, (t.getV x).getLsbD b = ((s.getV x).getLsbD b || (s.getV y).getLsbD b)) ∧
    (∃ t, exec (.andReg x y) s = .next t ∧ Keeps { regs := [x] } s t ∧
      ∀ b, (t.getV x).getLsbD b = ((s.getV x).getLsbD b && (s.getV y).getLsbD b)) ∧
    (∃ t, exec (.xorReg x y) s = .next t ∧ Keeps { regs := [x] } s t ∧
      ∀ b, (t.getV x).getLsbD b = ((s.getV x).getLsbD b ^^ (s.getV y).getLsbD b))

/-- 8XY4 (R87): VF is the carry, also when X = F; otherwise VX is the sum (D8 for X = F). -/
def Obligations.AddSetsCarry : Prop :=
  ∀ (x y : Reg) (s : State), ∃ t, exec (.addReg x y) s = .next t ∧
    (x ≠ 15 → (t.getV x).toNat = ((s.getV x).toNat + (s.getV y).toNat) % 256) ∧
    (t.getV 15).toNat = (if (s.getV x).toNat + (s.getV y).toNat > 255 then 1 else 0) ∧
    Keeps { regs := [x, 15] } s t

/-- 8XY5 (R88) and 8XY7 (R90): VF is the not-borrow of each ordering (D10 for 8XY7, D8 for X = F). -/
def Obligations.SubtractionsSetNotBorrow : Prop :=
  ∀ (x y : Reg) (s : State),
    (∃ t, exec (.subReg x y) s = .next t ∧
      (x ≠ 15 → (t.getV x).toNat = ((s.getV x).toNat + 256 - (s.getV y).toNat) % 256) ∧
      (t.getV 15).toNat = (if (s.getV x).toNat ≥ (s.getV y).toNat then 1 else 0) ∧
      Keeps { regs := [x, 15] } s t) ∧
    (∃ t, exec (.subnReg x y) s = .next t ∧
      (x ≠ 15 → (t.getV x).toNat = ((s.getV y).toNat + 256 - (s.getV x).toNat) % 256) ∧
      (t.getV 15).toNat = (if (s.getV y).toNat ≥ (s.getV x).toNat then 1 else 0) ∧
      Keeps { regs := [x, 15] } s t)

/-- 8XY6 (R89) and 8XYE (R91) under both settings of the shift quirk: VF is the bit shifted out (D8 for X = F). -/
def Obligations.ShiftsMoveOneBitIntoTheFlag : Prop :=
  ∀ (x y : Reg) (s : State) (src : Nat),
    src = (if s.cfg.legacyShift then (s.getV y).toNat else (s.getV x).toNat) →
    (∃ t, exec (.shrReg x y) s = .next t ∧
      (x ≠ 15 → (t.getV x).toNat = src / 2) ∧ (t.getV 15).toNat = src % 2 ∧
      Keeps { regs := [x, 15] } s t) ∧
    (∃ t, exec (.shlReg x y) s = .next t ∧
      (x ≠ 15 → (t.getV x).toNat = src * 2 % 256) ∧ (t.getV 15).toNat = src / 128 ∧
      Keeps { regs := [x, 15] } s t)

/-- CXNN (R92): the drawn byte masked, for every byte the random source may give (R14, D20; how the
bytes are supplied is log entry 3). -/
def Obligations.RandomByteIsMasked : Prop :=
  ∀ (x : Reg) (nn : Byte) (s : State),
    (∃ t, exec (.rnd x nn) s = .next t ∧ t.getV x = (s.nextRandom &&& nn) ∧
      t.rngBytes = s.rngBytes.tail ∧ t.drawCount = s.drawCount + 1 ∧ Keeps { regs := [x], rng := true } s t) ∧
    (∀ r rest, s.rngBytes = r :: rest → s.nextRandom = r)

/-! ## Index register and memory -/

/-- ANNN (R93): its encoding and its effect. -/
def Obligations.LoadIndex : Prop :=
  ∀ (nnn : Addr12) (s : State), decode (formatFA 0xA nnn) = .ok (.ldI nnn) ∧
    ∃ t, exec (.ldI nnn) s = .next t ∧ t.i.toNat = nnn.toNat ∧ Keeps { index := true } s t

/-- FX1E (R94): the sum modulo 0x1000 and the 12-bit overflow flag (D8 for X = F: the addend is the old VF). -/
def Obligations.AddIndexWrapsWithFlag : Prop :=
  ∀ (x : Reg) (s : State), ∃ t, exec (.addI x) s = .next t ∧
    t.i.toNat = (s.i.toNat + (s.getV x).toNat) % 0x1000 ∧
    (t.getV 15).toNat = (if s.i.toNat + (s.getV x).toNat > 0xFFF then 1 else 0) ∧
    Keeps { regs := [15], index := true } s t

/-- FX29 (R95): its encoding and its effect; only the low nibble of VX counts. -/
def Obligations.FontAddress : Prop :=
  ∀ (x : Reg) (s : State), decode (formatFI 0xF x 0x29) = .ok (.ldFont x) ∧
    ∃ t, exec (.ldFont x) s = .next t ∧
      t.i.toNat = s.cfg.fontBase.toNat + 5 * ((s.getV x).toNat % 16) ∧ Keeps { index := true } s t

/-- FX33 (R96) where its three bytes lie in memory (the bound is D5, log entry 14; that any byte there can be stored
to is D19, log entry 25). -/
def Obligations.BcdStoresThreeDigits : Prop :=
  ∀ (x : Reg) (s : State), s.i.toNat + 2 ≤ 0xFFF →
    ∃ t, exec (.storeBcd x) s = .next t ∧
      (t.byteAt (s.ea 0)).toNat = (s.getV x).toNat / 100 ∧
      (t.byteAt (s.ea 1)).toNat = (s.getV x).toNat / 10 % 10 ∧
      (t.byteAt (s.ea 2)).toNat = (s.getV x).toNat % 10 ∧
      Keeps { mem := fun a => decide (s.ea 0 ≤ a ∧ a ≤ s.ea 2) } s t

/-- FX55 (R97) where its bytes lie in memory; the advance of X + 1 under the quirk is D13, the bound D5, and that any
byte there can be stored to D19. -/
def Obligations.StoreRegistersAtIndex : Prop :=
  ∀ (x : Reg) (s : State), s.i.toNat + x.val ≤ 0xFFF →
    ∃ t, exec (.storeRegs x) s = .next t ∧
      (∀ k : Reg, k.val ≤ x.val → t.byteAt (s.ea k.val) = s.getV k) ∧
      t.i.toNat = (if s.cfg.indexAdvance then s.i.toNat + x.val + 1 else s.i.toNat) ∧
      Keeps { index := true, mem := fun a => decide (s.ea 0 ≤ a ∧ a ≤ s.ea x.val) } s t

/-- FX65 (R98) where its bytes lie in memory; the advance of X + 1 under the quirk is D13, the bound D5. -/
def Obligations.LoadRegistersFromIndex : Prop :=
  ∀ (x : Reg) (s : State), s.i.toNat + x.val ≤ 0xFFF →
    ∃ t, exec (.loadRegs x) s = .next t ∧
      (∀ k : Reg, t.getV k = if k.val ≤ x.val then s.byteAt (s.ea k.val) else s.getV k) ∧
      t.i.toNat = (if s.cfg.indexAdvance then s.i.toNat + x.val + 1 else s.i.toNat) ∧
      Keeps { regs := (List.finRange 16).filter fun k => decide (k.val ≤ x.val), index := true } s t

/-- "FX55 then FX65 with the same I and X (and the quirk off) restores V0..VX" (R98), whatever happened to the
registers in between. -/
def Obligations.StoredRegistersLoadBack : Prop :=
  ∀ (x : Reg) (s t u : State), s.cfg.indexAdvance = false → s.i.toNat + x.val ≤ 0xFFF →
    exec (.storeRegs x) s = .next t → u.i = s.i → u.mem = t.mem → u.cfg = t.cfg →
    ∃ w, exec (.loadRegs x) u = .next w ∧ ∀ k : Reg, k.val ≤ x.val → w.getV k = s.getV k

/-- FX33, FX55, FX65 and DXYN past the end of memory (R111, R114; the fault is D5): the first byte address above
0xFFF is recorded. DXYN leaves the pixels as they were (R101, R115, D15). -/
def Obligations.AccessesPastTheEndFault : Prop :=
  ∀ (s : State) (x y : Reg) (n : Nibble),
    (0xFFF < s.i.toNat + 2 → ∃ t, exec (.storeBcd x) s = .next t ∧
      FaultTaken ⟨.addressOutOfRange (firstOutOfRange s.i.toNat), some (encode (.storeBcd x)), s.pc - 2⟩ s t) ∧
    (0xFFF < s.i.toNat + x.val → ∃ t, exec (.storeRegs x) s = .next t ∧
      FaultTaken ⟨.addressOutOfRange (firstOutOfRange s.i.toNat), some (encode (.storeRegs x)), s.pc - 2⟩ s t) ∧
    (0xFFF < s.i.toNat + x.val → ∃ t, exec (.loadRegs x) s = .next t ∧
      FaultTaken ⟨.addressOutOfRange (firstOutOfRange s.i.toNat), some (encode (.loadRegs x)), s.pc - 2⟩ s t) ∧
    (1 ≤ n.toNat → 0xFFF < s.i.toNat + n.toNat - 1 → ∃ t, exec (.drw x y n) s = .next t ∧ t.fb = s.fb ∧
      FaultTaken ⟨.addressOutOfRange (firstOutOfRange s.i.toNat), some (encode (.drw x y n)), s.pc - 2⟩ s t)

/-- Self-modifying code (R58, R150): a register store is seen by the next fetch of its bytes (that code can
be stored over is D19, that the fetch may be at an odd address D6). -/
def Obligations.StoresAreSeenByTheNextFetch : Prop :=
  ∀ (x : Reg) (s t : State) (a : Word) (k : Reg), s.i.toNat + x.val ≤ 0xFFF → k.val + 1 ≤ x.val →
    a.toNat = s.ea k.val → exec (.storeRegs x) s = .next t →
    ∀ k' : Reg, k'.val = k.val + 1 → t.fetch16 a = .ok (wordOfBytes (s.getV k) (s.getV k'))

/-- There is no write protection (R53, D19): a byte write inside memory is read back, every other byte stays. -/
def Obligations.EveryByteIsWritable : Prop :=
  ∀ (s : State) (a : Nat) (b : Byte), a ≤ 0xFFF →
    ∃ t, s.memWrite a b = .ok t ∧ t.memRead a = .ok b ∧ Keeps { mem := fun c => c == a } s t

/-! ## Framebuffer -/

/-- 00E0 (R99): its encoding and its effect; every pixel clear, VF not written. -/
def Obligations.ClearScreen : Prop :=
  ∀ s : State, decode 0x00E0 = .ok .cls ∧ ∃ t, exec .cls s = .next t ∧ (∀ p, t.pixel p = false) ∧ Keeps { fb := true } s t

/-- DXYN (R100, R101): it toggles exactly the pixels its sprite's set bits land on, under both settings of the edge
quirk, and VF says whether one of them was set. N = 0 is D14, reading all rows D15, the order of VF D8. -/
def Obligations.DrawTogglesTheSpritePixels : Prop :=
  ∀ (x y : Reg) (n : Nibble) (s : State), (n.toNat ≠ 0 → s.i.toNat + n.toNat - 1 ≤ 0xFFF) →
    ∃ t, exec (.drw x y n) s = .next t ∧
      (∀ p, SpriteCovers s x y n p → t.pixel p = !(s.pixel p)) ∧
      (∀ p, ¬ SpriteCovers s x y n p → t.pixel p = s.pixel p) ∧
      ((∃ p, SpriteCovers s x y n p ∧ s.pixel p = true) → t.getV 15 = 1) ∧
      ((∀ p, SpriteCovers s x y n p → s.pixel p = false) → t.getV 15 = 0) ∧
      Keeps { regs := [15], fb := true } s t

/-- "Drawing the same sprite twice at the same coordinates with no state change in between restores the framebuffer
to its pre-draw state exactly" (R102). The second draw collides when a set bit of the sprite landed on a pixel that
was clear before the first draw. VX and VY are other registers than VF, which the first draw writes.
N = 0 is D14, reading all rows D15. -/
def Obligations.DrawingTwiceRestores : Prop :=
  ∀ (x y : Reg) (n : Nibble) (s t : State), x ≠ 15 → y ≠ 15 →
    (n.toNat ≠ 0 → s.i.toNat + n.toNat - 1 ≤ 0xFFF) → exec (.drw x y n) s = .next t →
    ∃ u, exec (.drw x y n) t = .next u ∧ u.fb = s.fb ∧
      ((∃ p, SpriteCovers s x y n p ∧ s.pixel p = false) → u.getV 15 = 1)

/-- The derived sentence of R102 as it stands: the second draw of such a pair sets VF whenever the sprite has at least
one visible set bit. By R101 it does not hold: over pixels that were all set, the first draw clears them and the
second meets none set. Expected to fail. -/
def Obligations.SecondDrawAlwaysCollides : Prop :=
  ∀ (x y : Reg) (n : Nibble) (s t : State), x ≠ 15 → y ≠ 15 →
    (n.toNat ≠ 0 → s.i.toNat + n.toNat - 1 ≤ 0xFFF) → exec (.drw x y n) s = .next t →
    (∃ p, SpriteCovers s x y n p) → ∃ u, exec (.drw x y n) t = .next u ∧ u.getV 15 = 1

/-! ## Keys and timers -/

/-- EX9E (R104) and EXA1 (R105): the skip on the snapshot, and the fault on a value above 0xF (D12). -/
def Obligations.SkipsOnKey : Prop :=
  ∀ (x : Reg) (s : State),
    (∀ k : Key, (s.getV x).toNat = k.val →
      (∃ t, exec (.skp x) s = .next t ∧
        t.pc = (if s.keyDown k = true then s.pc + 2 else s.pc) ∧ Keeps { pc := true } s t) ∧
      (∃ t, exec (.sknp x) s = .next t ∧
        t.pc = (if s.keyDown k = true then s.pc else s.pc + 2) ∧ Keeps { pc := true } s t)) ∧
    (0xF < (s.getV x).toNat →
      (∃ t, exec (.skp x) s = .next t ∧
        FaultTaken ⟨.keyIndexOutOfRange (s.getV x), some (encode (.skp x)), s.pc - 2⟩ s t) ∧
      (∃ t, exec (.sknp x) s = .next t ∧
        FaultTaken ⟨.keyIndexOutOfRange (s.getV x), some (encode (.sknp x)), s.pc - 2⟩ s t))

/-- FX0A (R106): with no key pressed PC goes back to the instruction and VX is kept; else VX is a pressed key. -/
def Obligations.WaitForKey : Prop :=
  ∀ (x : Reg) (s : State),
    (s.keys = 0 → ∃ t, exec (.waitKey x) s = .next t ∧ t.pc = s.pc - 2 ∧ Keeps { pc := true } s t) ∧
    (s.keys ≠ 0 → ∃ t, exec (.waitKey x) s = .next t ∧
      (∃ k : Key, s.keyDown k = true ∧ (t.getV x).toNat = k.val) ∧ Keeps { regs := [x] } s t)

/-- "the model admits any pressed key" (R106, D11): some legal configuration stores each pressed key
(the configuration's table is log entry 6). -/
def Obligations.AnyPressedKeyIsAdmitted : Prop :=
  ∀ (cfg : Config) (keys : BitVec 16) (k : Key), cfg.wellFormed = true → keys.getLsbD k.val = true →
    ∃ c : Config, c.wellFormed = true ∧ keySelect c keys = some k

/-- FX07 (R107), FX15 (R108) and FX18 (R109); the pairing is the spec's general knowledge (K6). -/
def Obligations.TimerInstructions : Prop :=
  ∀ (x : Reg) (s : State),
    (∃ t, exec (.readDt x) s = .next t ∧ t.getV x = s.dt ∧ Keeps { regs := [x] } s t) ∧
    (∃ t, exec (.setDt x) s = .next t ∧ t.dt = s.getV x ∧ Keeps { dt := true } s t) ∧
    (∃ t, exec (.setSt x) s = .next t ∧ t.st = s.getV x ∧ Keeps { st := true } s t)

/-! ## Whole-machine rules: what only some instructions may change -/

/-- Only 00E0 and DXYN change FB (R31, R103). -/
def Obligations.OnlyClearAndDrawChangePixels : Prop :=
  ∀ (i : Instr) (s t : State), s.status = .running → exec i s = .next t → t.status = .running →
    t.fb ≠ s.fb → i = .cls ∨ ∃ x y n, i = .drw x y n

/-- Only FX33 and FX55 change memory (R43), and only from I to I + 15. -/
def Obligations.OnlyStoresChangeMemory : Prop :=
  ∀ (i : Instr) (s t : State) (a : Nat), s.status = .running → exec i s = .next t → t.status = .running →
    t.byteAt a ≠ s.byteAt a →
    (∃ x, i = .storeBcd x ∨ i = .storeRegs x) ∧ s.i.toNat ≤ a ∧ a ≤ s.i.toNat + 15

/-- Only 2NNN and 00EE change the call stack (R26). -/
def Obligations.OnlyCallAndReturnChangeTheStack : Prop :=
  ∀ (i : Instr) (s t : State), s.status = .running → exec i s = .next t → t.status = .running →
    t.stack ≠ s.stack → i = .ret ∨ ∃ nnn, i = .call nnn

/-- An instruction changes a timer only by FX15 and FX18, and never the key latch, the configuration or the
published outputs (R32, R125, R126, R20). -/
def Obligations.InstructionsLeaveTheDevices : Prop :=
  ∀ (i : Instr) (s t : State), s.status = .running → exec i s = .next t → t.status = .running →
    (t.dt ≠ s.dt → ∃ x, i = .setDt x) ∧ (t.st ≠ s.st → ∃ x, i = .setSt x) ∧ t.keys = s.keys ∧
    t.cfg = s.cfg ∧ t.fbOut = s.fbOut ∧ t.toneActive = s.toneActive

/-- The instructions that change VF: the flag writers of R23, and those whose destination is VF. That 8XY1, 8XY2 and
8XY3 change it only as their destination is D9 (log entry 15). -/
def Obligations.OnlyListedInstructionsChangeTheFlag : Prop :=
  ∀ (i : Instr) (s t : State), s.status = .running → exec i s = .next t → t.status = .running →
    t.getV 15 ≠ s.getV 15 →
    (∃ x y, i = .addReg x y ∨ i = .subReg x y ∨ i = .shrReg x y ∨ i = .subnReg x y ∨ i = .shlReg x y) ∨
    (∃ x, i = .addI x) ∨ (∃ x y n, i = .drw x y n) ∨
    (∃ nn, i = .ldImm 15 nn ∨ i = .addImm 15 nn ∨ i = .rnd 15 nn) ∨
    (∃ y, i = .ldReg 15 y ∨ i = .orReg 15 y ∨ i = .andReg 15 y ∨ i = .xorReg 15 y) ∨
    i = .readDt 15 ∨ i = .waitKey 15 ∨ i = .loadRegs 15

/-- No step changes the configuration (R5, R20). -/
def Obligations.ConfigurationIsFixed : Prop :=
  ∀ s t : State, step s = .next t → t.cfg = s.cfg

/-- The outputs change only at a publication (R126, R127): the end of a batch of a running machine (the
phase is log entry 8). -/
def Obligations.OutputsChangeOnlyAtPublication : Prop :=
  ∀ s t : State, step s = .next t → (t.fbOut ≠ s.fbOut ∨ t.toneActive ≠ s.toneActive) →
    s.status = .running ∧ s.phase = .batch 0

/-! ## The frame -/

/-- The top of a frame (R123, R124, R128, R139), for inputs the host has supplied: the halt request stops the
block before the tick (D28); else the timers tick (one tick a frame is D3), the latch is replaced (D29) and the
batch begins (the phase is log entry 8, the supply of inputs log entry 4). -/
def Obligations.FrameTop : Prop :=
  ∀ (s : State) (inp : FrameInput) (rest : List FrameInput), s.status = .running → s.phase = .top →
    s.frameInputs = inp :: rest → ∃ t, step s = .next t ∧ t.frameInputs = rest ∧
    (∀ r, t.getV r = s.getV r) ∧ t.i = s.i ∧ t.pc = s.pc ∧ t.stack = s.stack ∧ t.mem = s.mem ∧ t.fb = s.fb ∧
    t.cfg = s.cfg ∧ t.fbOut = s.fbOut ∧ t.toneActive = s.toneActive ∧
    (inp.haltReq = true → t.status = .halted ∧ t.dt = s.dt ∧ t.st = s.st ∧ t.keys = s.keys) ∧
    (inp.haltReq = false → t.status = .running ∧ t.phase = .batch s.cfg.instrPerFrame ∧
      t.dt.toNat = s.dt.toNat - 1 ∧ t.st.toNat = s.st.toNat - 1 ∧ t.keys = inp.keysIn)

/-- "each saturating at 0 (never wraps negative)" (R29, R124): after n ticks each timer is down by n, at least 0. -/
def Obligations.TicksCountDownToZero : Prop :=
  ∀ (n : Nat) (s : State),
    (State.tick^[n] s).dt.toNat = s.dt.toNat - n ∧ (State.tick^[n] s).st.toNat = s.st.toNat - n ∧
    Keeps { dt := true, st := true } s (State.tick^[n] s)

/-- The end of a batch (R126, R127): the block publishes a copy of FB and whether ST is not 0 (the
phase that stands for that end is log entry 8). -/
def Obligations.BatchEndPublishes : Prop :=
  ∀ s : State, s.status = .running → s.phase = .batch 0 → ∃ t, step s = .next t ∧
    t.fbOut = s.fb ∧ (t.toneActive = true ↔ s.st ≠ 0) ∧ t.phase = .top ∧ t.fb = s.fb ∧ t.st = s.st ∧
    t.dt = s.dt ∧ t.v = s.v ∧ t.i = s.i ∧ t.pc = s.pc ∧ t.stack = s.stack ∧ t.mem = s.mem ∧ t.keys = s.keys ∧
    t.status = .running ∧ t.cfg = s.cfg

/-- The machine's steps from the top of a frame are the frame of R139: `instr_per_frame` instructions with a step
before them and a step after them, for whatever inputs the host presents (log entries 4 and 8). -/
def Obligations.StepsMakeTheFrame : Prop :=
  ∀ s : State, s.status = .running → s.phase = .top →
    Host.Core.run core (s.cfg.instrPerFrame + 2) s =
      frame s.frameInput.keysIn s.frameInput.haltReq s.afterInput

/-- A fault in a step ends the frame and publishes nothing (R141; D33): the outputs are those of before the frame. -/
def Obligations.FaultedFramePublishesNothing : Prop :=
  ∀ (s t : State) (keysIn : BitVec 16) (haltReq : Bool), s.status = .running →
    frame keysIn haltReq s = .next t → t.status ≠ .running →
    t.fbOut = s.fbOut ∧ t.toneActive = s.toneActive

/-! ## The invariant -/

/-- The invariant holds at reset. -/
def Obligations.ResetMeetsTheInvariant : Prop := State.reset.Inv

/-- The invariant holds after construction and load, for every legal configuration and every image that fits. -/
def Obligations.LoadedMachineMeetsTheInvariant : Prop :=
  ∀ (cfg : Config) (image : List Byte) (t : State), cfg.wellFormed = true →
    (State.construct cfg).load image = .ok t → t.Inv

/-- Every step keeps the invariant: memory in its canonical form, the stack within its capacity, and while no fault
has stopped the block I at most 0x1000 (R28), PC at most 0x10FE (R25) and every return address at most 0x1000.
The capacity is D4, the advance of I to 0x1000 D13, the unmasked BNNN target D24. -/
def Obligations.EveryStepKeepsTheInvariant : Prop :=
  ∀ s t : State, s.Inv → step s = .next t → t.Inv
end

