-- ==== Sys2Proof/Laws/Decode.lean ====
section
/-! SUPPORT. The fields of an encoded word, for each format (R60, R66): what the decoder reads of what the encoder
wrote. -/

namespace Sys2Proof

theorem reg_ofNat_toNat (x : Reg) : (BitVec.ofFin (w := 4) x).toNat = x.val := rfl

theorem toNat_formatFA (op : Nibble) (nnn : Addr12) :
    (formatFA op nnn).toNat = op.toNat * 4096 + nnn.toNat := by
  have h : (formatFA op nnn).toNat = op.toNat <<< 12 ||| nnn.toNat := BitVec.toNat_append op nnn
  rw [h, ← Nat.shiftLeft_add_eq_or_of_lt nnn.isLt, Nat.shiftLeft_eq]

theorem toNat_formatFI (op : Nibble) (x : Reg) (nn : Byte) :
    (formatFI op x nn).toNat = op.toNat * 4096 + x.val * 256 + nn.toNat := by
  have h : (formatFI op x nn).toNat = (op ++ BitVec.ofFin (w := 4) x).toNat <<< 8 ||| nn.toNat :=
    BitVec.toNat_append _ _
  have h' : (op ++ BitVec.ofFin (w := 4) x).toNat = op.toNat <<< 4 ||| x.val := BitVec.toNat_append _ _
  rw [h, h', ← Nat.shiftLeft_add_eq_or_of_lt nn.isLt, ← Nat.shiftLeft_add_eq_or_of_lt x.isLt,
    Nat.shiftLeft_eq, Nat.shiftLeft_eq]
  omega

theorem toNat_formatFR (op : Nibble) (x y : Reg) (s : Nibble) :
    (formatFR op x y s).toNat = op.toNat * 4096 + x.val * 256 + y.val * 16 + s.toNat := by
  have h : (formatFR op x y s).toNat =
      (op ++ BitVec.ofFin (w := 4) x).toNat <<< 8 ||| (BitVec.ofFin (w := 4) y ++ s).toNat :=
    BitVec.toNat_append _ _
  have h' : (op ++ BitVec.ofFin (w := 4) x).toNat = op.toNat <<< 4 ||| x.val := BitVec.toNat_append _ _
  have h'' : (BitVec.ofFin (w := 4) y ++ s).toNat = y.val <<< 4 ||| s.toNat := BitVec.toNat_append _ _
  have hl : (BitVec.ofFin (w := 4) y ++ s).toNat < 2 ^ 8 := (BitVec.ofFin (w := 4) y ++ s).isLt
  rw [h, ← Nat.shiftLeft_add_eq_or_of_lt hl, h', h'', ← Nat.shiftLeft_add_eq_or_of_lt s.isLt,
    ← Nat.shiftLeft_add_eq_or_of_lt x.isLt]
  simp only [Nat.shiftLeft_eq]
  omega

theorem opField_toNat (w : Word) : (opField w).toNat = w.toNat / 4096 := by
  have := w.isLt
  simp [opField, BitVec.extractLsb'_toNat, Nat.shiftRight_eq_div_pow]
  omega

theorem xField_val (w : Word) : (xField w).val = w.toNat / 256 % 16 := by
  simp [xField, BitVec.extractLsb'_toNat, Nat.shiftRight_eq_div_pow]

theorem yField_val (w : Word) : (yField w).val = w.toNat / 16 % 16 := by
  simp [yField, BitVec.extractLsb'_toNat, Nat.shiftRight_eq_div_pow]

theorem nField_toNat (w : Word) : (nField w).toNat = w.toNat % 16 := by
  simp [nField, BitVec.extractLsb'_toNat]

theorem nnField_toNat (w : Word) : (nnField w).toNat = w.toNat % 256 := by
  simp [nnField, BitVec.extractLsb'_toNat]

theorem nnnField_toNat (w : Word) : (nnnField w).toNat = w.toNat % 4096 := by
  simp [nnnField, BitVec.extractLsb'_toNat]

/-! ## Fields of formats -/

theorem fields_formatFA (op : Nibble) (nnn : Addr12) :
    opField (formatFA op nnn) = op ∧ nnnField (formatFA op nnn) = nnn := by
  have := nnn.isLt
  refine ⟨BitVec.eq_of_toNat_eq ?_, BitVec.eq_of_toNat_eq ?_⟩
  · rw [opField_toNat, toNat_formatFA]; omega
  · rw [nnnField_toNat, toNat_formatFA]; omega

theorem fields_formatFI (op : Nibble) (x : Reg) (nn : Byte) :
    opField (formatFI op x nn) = op ∧ xField (formatFI op x nn) = x ∧ nnField (formatFI op x nn) = nn := by
  have := nn.isLt
  have := x.isLt
  refine ⟨BitVec.eq_of_toNat_eq ?_, Fin.ext ?_, BitVec.eq_of_toNat_eq ?_⟩
  · rw [opField_toNat, toNat_formatFI]; omega
  · rw [xField_val, toNat_formatFI]; omega
  · rw [nnField_toNat, toNat_formatFI]; omega

theorem fields_formatFR (op : Nibble) (x y : Reg) (s : Nibble) :
    opField (formatFR op x y s) = op ∧ xField (formatFR op x y s) = x ∧
      yField (formatFR op x y s) = y ∧ nField (formatFR op x y s) = s := by
  have := s.isLt
  have := x.isLt
  have := y.isLt
  refine ⟨BitVec.eq_of_toNat_eq ?_, Fin.ext ?_, Fin.ext ?_, BitVec.eq_of_toNat_eq ?_⟩
  · rw [opField_toNat, toNat_formatFR]; omega
  · rw [xField_val, toNat_formatFR]; omega
  · rw [yField_val, toNat_formatFR]; omega
  · rw [nField_toNat, toNat_formatFR]; omega

/-! ## Words from fields -/

theorem word_eq_formatFA (w : Word) : w = formatFA (opField w) (nnnField w) := by
  apply BitVec.eq_of_toNat_eq
  rw [toNat_formatFA, opField_toNat, nnnField_toNat]; omega

theorem word_eq_formatFI (w : Word) : w = formatFI (opField w) (xField w) (nnField w) := by
  apply BitVec.eq_of_toNat_eq
  rw [toNat_formatFI, opField_toNat, xField_val, nnField_toNat]; omega

theorem word_eq_formatFR (w : Word) : w = formatFR (opField w) (xField w) (yField w) (nField w) := by
  apply BitVec.eq_of_toNat_eq
  rw [toNat_formatFR, opField_toNat, xField_val, yField_val, nField_toNat]; omega

/-! ## The masks of the opcode map (R63) -/

/-- The mask 0xF000 keeps the family. -/
theorem and_F000 (w : Word) : w &&& 0xF000 = formatFA (opField w) 0 := by
  have h : ∀ (op : Nibble) (n : Addr12), formatFA op n &&& 0xF000 = formatFA op 0 := by
    intro op n
    have e : (0xF000 : Word) = formatFA 0xF 0 := by decide
    rw [e]
    show (op ++ n) &&& ((0xF : Nibble) ++ (0 : Addr12)) = op ++ (0 : Addr12)
    rw [BitVec.and_append]
    congr 1
    · revert op; decide
    · simp
  conv => lhs; rw [word_eq_formatFA w]
  exact h _ _

/-- The mask 0xF0FF keeps the family and NN. -/
theorem and_F0FF (w : Word) : w &&& 0xF0FF = formatFI (opField w) 0 (nnField w) := by
  have h : ∀ (op : Nibble) (x : Reg) (n : Byte), formatFI op x n &&& 0xF0FF = formatFI op 0 n := by
    intro op x n
    have e : (0xF0FF : Word) = formatFI 0xF 0 0xFF := by decide
    rw [e]
    show ((op ++ BitVec.ofFin (w := 4) x) ++ n) &&& (((0xF : Nibble) ++ BitVec.ofFin (w := 4) 0) ++ (0xFF : Byte)) =
      (op ++ BitVec.ofFin (w := 4) 0) ++ n
    rw [BitVec.and_append, BitVec.and_append]
    congr 1
    · congr 1
      · revert op; decide
      · revert x; decide
    · revert n; decide
  conv => lhs; rw [word_eq_formatFI w]
  exact h _ _ _

/-- The mask 0xF00F keeps the family and N. -/
theorem and_F00F (w : Word) : w &&& 0xF00F = formatFR (opField w) 0 0 (nField w) := by
  have h : ∀ (op : Nibble) (x y : Reg) (n : Nibble), formatFR op x y n &&& 0xF00F = formatFR op 0 0 n := by
    intro op x y n
    have e : (0xF00F : Word) = formatFR 0xF 0 0 0xF := by decide
    rw [e]
    show ((op ++ BitVec.ofFin (w := 4) x) ++ (BitVec.ofFin (w := 4) y ++ n)) &&&
        (((0xF : Nibble) ++ BitVec.ofFin (w := 4) 0) ++ (BitVec.ofFin (w := 4) 0 ++ (0xF : Nibble))) =
      (op ++ BitVec.ofFin (w := 4) 0) ++ (BitVec.ofFin (w := 4) 0 ++ n)
    rw [BitVec.and_append, BitVec.and_append, BitVec.and_append]
    congr 1
    · congr 1
      · revert op; decide
      · revert x; decide
    · congr 1
      · revert y; decide
      · revert n; decide
  conv => lhs; rw [word_eq_formatFR w]
  exact h _ _ _ _

/-- The two bytes of a word make the word (R44). -/
theorem wordOfBytes_hiByte_loByte (w : Word) : wordOfBytes (hiByte w) (loByte w) = w := by
  apply BitVec.eq_of_toNat_eq
  have h : (wordOfBytes (hiByte w) (loByte w)).toNat = (hiByte w).toNat <<< 8 ||| (loByte w).toNat :=
    BitVec.toNat_append _ _
  rw [h, ← Nat.shiftLeft_add_eq_or_of_lt (loByte w).isLt, Nat.shiftLeft_eq]
  have := w.isLt
  simp [hiByte, loByte, BitVec.extractLsb'_toNat, Nat.shiftRight_eq_div_pow]
  omega

/-- A 16-bit table word is the word itself. -/
theorem tableWord_16 (w : Word) : tableWord 16 w.toNat = w := by
  apply BitVec.eq_of_toNat_eq
  have := w.isLt
  simp only [tableWord, BitVec.toNat_ofNat]
  omega

end Sys2Proof
end

