-- ==== Sys2Proof/Laws/State.lean ====
section
/-! SUPPORT. The fields of State after each named update: one lemma for each field of each update, true by rfl,
so that no later proof unfolds a record update. -/

namespace Sys2Proof.Machine

variable (s : State)

/-! ## setV -/

@[simp] theorem State.setV_v (r : Reg) (b : Byte) : (s.setV r b).v = s.v.set r.val b := rfl
@[simp] theorem State.setV_i (r : Reg) (b : Byte) : (s.setV r b).i = s.i := rfl
@[simp] theorem State.setV_pc (r : Reg) (b : Byte) : (s.setV r b).pc = s.pc := rfl
@[simp] theorem State.setV_stack (r : Reg) (b : Byte) : (s.setV r b).stack = s.stack := rfl
@[simp] theorem State.setV_dt (r : Reg) (b : Byte) : (s.setV r b).dt = s.dt := rfl
@[simp] theorem State.setV_st (r : Reg) (b : Byte) : (s.setV r b).st = s.st := rfl
@[simp] theorem State.setV_mem (r : Reg) (b : Byte) : (s.setV r b).mem = s.mem := rfl
@[simp] theorem State.setV_fb (r : Reg) (b : Byte) : (s.setV r b).fb = s.fb := rfl
@[simp] theorem State.setV_keys (r : Reg) (b : Byte) : (s.setV r b).keys = s.keys := rfl
@[simp] theorem State.setV_status (r : Reg) (b : Byte) : (s.setV r b).status = s.status := rfl
@[simp] theorem State.setV_cfg (r : Reg) (b : Byte) : (s.setV r b).cfg = s.cfg := rfl
@[simp] theorem State.setV_fbOut (r : Reg) (b : Byte) : (s.setV r b).fbOut = s.fbOut := rfl
@[simp] theorem State.setV_toneActive (r : Reg) (b : Byte) : (s.setV r b).toneActive = s.toneActive := rfl
@[simp] theorem State.setV_phase (r : Reg) (b : Byte) : (s.setV r b).phase = s.phase := rfl
@[simp] theorem State.setV_frameInputs (r : Reg) (b : Byte) : (s.setV r b).frameInputs = s.frameInputs := rfl
@[simp] theorem State.setV_frameCount (r : Reg) (b : Byte) : (s.setV r b).frameCount = s.frameCount := rfl
@[simp] theorem State.setV_rngBytes (r : Reg) (b : Byte) : (s.setV r b).rngBytes = s.rngBytes := rfl
@[simp] theorem State.setV_drawCount (r : Reg) (b : Byte) : (s.setV r b).drawCount = s.drawCount := rfl

/-! ## setFlag -/

@[simp] theorem State.setFlag_v (b : Bool) : (s.setFlag b).v = s.v.set vF.val (if b then 1 else 0) := rfl
@[simp] theorem State.setFlag_i (b : Bool) : (s.setFlag b).i = s.i := rfl
@[simp] theorem State.setFlag_pc (b : Bool) : (s.setFlag b).pc = s.pc := rfl
@[simp] theorem State.setFlag_stack (b : Bool) : (s.setFlag b).stack = s.stack := rfl
@[simp] theorem State.setFlag_dt (b : Bool) : (s.setFlag b).dt = s.dt := rfl
@[simp] theorem State.setFlag_st (b : Bool) : (s.setFlag b).st = s.st := rfl
@[simp] theorem State.setFlag_mem (b : Bool) : (s.setFlag b).mem = s.mem := rfl
@[simp] theorem State.setFlag_fb (b : Bool) : (s.setFlag b).fb = s.fb := rfl
@[simp] theorem State.setFlag_keys (b : Bool) : (s.setFlag b).keys = s.keys := rfl
@[simp] theorem State.setFlag_status (b : Bool) : (s.setFlag b).status = s.status := rfl
@[simp] theorem State.setFlag_cfg (b : Bool) : (s.setFlag b).cfg = s.cfg := rfl
@[simp] theorem State.setFlag_fbOut (b : Bool) : (s.setFlag b).fbOut = s.fbOut := rfl
@[simp] theorem State.setFlag_toneActive (b : Bool) : (s.setFlag b).toneActive = s.toneActive := rfl
@[simp] theorem State.setFlag_phase (b : Bool) : (s.setFlag b).phase = s.phase := rfl
@[simp] theorem State.setFlag_frameInputs (b : Bool) : (s.setFlag b).frameInputs = s.frameInputs := rfl
@[simp] theorem State.setFlag_frameCount (b : Bool) : (s.setFlag b).frameCount = s.frameCount := rfl
@[simp] theorem State.setFlag_rngBytes (b : Bool) : (s.setFlag b).rngBytes = s.rngBytes := rfl
@[simp] theorem State.setFlag_drawCount (b : Bool) : (s.setFlag b).drawCount = s.drawCount := rfl

/-! ## setPc -/

@[simp] theorem State.setPc_v (a : Word) : (s.setPc a).v = s.v := rfl
@[simp] theorem State.setPc_i (a : Word) : (s.setPc a).i = s.i := rfl
@[simp] theorem State.setPc_pc (a : Word) : (s.setPc a).pc = a := rfl
@[simp] theorem State.setPc_stack (a : Word) : (s.setPc a).stack = s.stack := rfl
@[simp] theorem State.setPc_dt (a : Word) : (s.setPc a).dt = s.dt := rfl
@[simp] theorem State.setPc_st (a : Word) : (s.setPc a).st = s.st := rfl
@[simp] theorem State.setPc_mem (a : Word) : (s.setPc a).mem = s.mem := rfl
@[simp] theorem State.setPc_fb (a : Word) : (s.setPc a).fb = s.fb := rfl
@[simp] theorem State.setPc_keys (a : Word) : (s.setPc a).keys = s.keys := rfl
@[simp] theorem State.setPc_status (a : Word) : (s.setPc a).status = s.status := rfl
@[simp] theorem State.setPc_cfg (a : Word) : (s.setPc a).cfg = s.cfg := rfl
@[simp] theorem State.setPc_fbOut (a : Word) : (s.setPc a).fbOut = s.fbOut := rfl
@[simp] theorem State.setPc_toneActive (a : Word) : (s.setPc a).toneActive = s.toneActive := rfl
@[simp] theorem State.setPc_phase (a : Word) : (s.setPc a).phase = s.phase := rfl
@[simp] theorem State.setPc_frameInputs (a : Word) : (s.setPc a).frameInputs = s.frameInputs := rfl
@[simp] theorem State.setPc_frameCount (a : Word) : (s.setPc a).frameCount = s.frameCount := rfl
@[simp] theorem State.setPc_rngBytes (a : Word) : (s.setPc a).rngBytes = s.rngBytes := rfl
@[simp] theorem State.setPc_drawCount (a : Word) : (s.setPc a).drawCount = s.drawCount := rfl

/-! ## setI -/

@[simp] theorem State.setI_v (a : Word) : (s.setI a).v = s.v := rfl
@[simp] theorem State.setI_i (a : Word) : (s.setI a).i = a := rfl
@[simp] theorem State.setI_pc (a : Word) : (s.setI a).pc = s.pc := rfl
@[simp] theorem State.setI_stack (a : Word) : (s.setI a).stack = s.stack := rfl
@[simp] theorem State.setI_dt (a : Word) : (s.setI a).dt = s.dt := rfl
@[simp] theorem State.setI_st (a : Word) : (s.setI a).st = s.st := rfl
@[simp] theorem State.setI_mem (a : Word) : (s.setI a).mem = s.mem := rfl
@[simp] theorem State.setI_fb (a : Word) : (s.setI a).fb = s.fb := rfl
@[simp] theorem State.setI_keys (a : Word) : (s.setI a).keys = s.keys := rfl
@[simp] theorem State.setI_status (a : Word) : (s.setI a).status = s.status := rfl
@[simp] theorem State.setI_cfg (a : Word) : (s.setI a).cfg = s.cfg := rfl
@[simp] theorem State.setI_fbOut (a : Word) : (s.setI a).fbOut = s.fbOut := rfl
@[simp] theorem State.setI_toneActive (a : Word) : (s.setI a).toneActive = s.toneActive := rfl
@[simp] theorem State.setI_phase (a : Word) : (s.setI a).phase = s.phase := rfl
@[simp] theorem State.setI_frameInputs (a : Word) : (s.setI a).frameInputs = s.frameInputs := rfl
@[simp] theorem State.setI_frameCount (a : Word) : (s.setI a).frameCount = s.frameCount := rfl
@[simp] theorem State.setI_rngBytes (a : Word) : (s.setI a).rngBytes = s.rngBytes := rfl
@[simp] theorem State.setI_drawCount (a : Word) : (s.setI a).drawCount = s.drawCount := rfl

/-! ## setDt -/

@[simp] theorem State.setDt_v (b : Byte) : (s.setDt b).v = s.v := rfl
@[simp] theorem State.setDt_i (b : Byte) : (s.setDt b).i = s.i := rfl
@[simp] theorem State.setDt_pc (b : Byte) : (s.setDt b).pc = s.pc := rfl
@[simp] theorem State.setDt_stack (b : Byte) : (s.setDt b).stack = s.stack := rfl
@[simp] theorem State.setDt_dt (b : Byte) : (s.setDt b).dt = b := rfl
@[simp] theorem State.setDt_st (b : Byte) : (s.setDt b).st = s.st := rfl
@[simp] theorem State.setDt_mem (b : Byte) : (s.setDt b).mem = s.mem := rfl
@[simp] theorem State.setDt_fb (b : Byte) : (s.setDt b).fb = s.fb := rfl
@[simp] theorem State.setDt_keys (b : Byte) : (s.setDt b).keys = s.keys := rfl
@[simp] theorem State.setDt_status (b : Byte) : (s.setDt b).status = s.status := rfl
@[simp] theorem State.setDt_cfg (b : Byte) : (s.setDt b).cfg = s.cfg := rfl
@[simp] theorem State.setDt_fbOut (b : Byte) : (s.setDt b).fbOut = s.fbOut := rfl
@[simp] theorem State.setDt_toneActive (b : Byte) : (s.setDt b).toneActive = s.toneActive := rfl
@[simp] theorem State.setDt_phase (b : Byte) : (s.setDt b).phase = s.phase := rfl
@[simp] theorem State.setDt_frameInputs (b : Byte) : (s.setDt b).frameInputs = s.frameInputs := rfl
@[simp] theorem State.setDt_frameCount (b : Byte) : (s.setDt b).frameCount = s.frameCount := rfl
@[simp] theorem State.setDt_rngBytes (b : Byte) : (s.setDt b).rngBytes = s.rngBytes := rfl
@[simp] theorem State.setDt_drawCount (b : Byte) : (s.setDt b).drawCount = s.drawCount := rfl

/-! ## setSt -/

@[simp] theorem State.setSt_v (b : Byte) : (s.setSt b).v = s.v := rfl
@[simp] theorem State.setSt_i (b : Byte) : (s.setSt b).i = s.i := rfl
@[simp] theorem State.setSt_pc (b : Byte) : (s.setSt b).pc = s.pc := rfl
@[simp] theorem State.setSt_stack (b : Byte) : (s.setSt b).stack = s.stack := rfl
@[simp] theorem State.setSt_dt (b : Byte) : (s.setSt b).dt = s.dt := rfl
@[simp] theorem State.setSt_st (b : Byte) : (s.setSt b).st = b := rfl
@[simp] theorem State.setSt_mem (b : Byte) : (s.setSt b).mem = s.mem := rfl
@[simp] theorem State.setSt_fb (b : Byte) : (s.setSt b).fb = s.fb := rfl
@[simp] theorem State.setSt_keys (b : Byte) : (s.setSt b).keys = s.keys := rfl
@[simp] theorem State.setSt_status (b : Byte) : (s.setSt b).status = s.status := rfl
@[simp] theorem State.setSt_cfg (b : Byte) : (s.setSt b).cfg = s.cfg := rfl
@[simp] theorem State.setSt_fbOut (b : Byte) : (s.setSt b).fbOut = s.fbOut := rfl
@[simp] theorem State.setSt_toneActive (b : Byte) : (s.setSt b).toneActive = s.toneActive := rfl
@[simp] theorem State.setSt_phase (b : Byte) : (s.setSt b).phase = s.phase := rfl
@[simp] theorem State.setSt_frameInputs (b : Byte) : (s.setSt b).frameInputs = s.frameInputs := rfl
@[simp] theorem State.setSt_frameCount (b : Byte) : (s.setSt b).frameCount = s.frameCount := rfl
@[simp] theorem State.setSt_rngBytes (b : Byte) : (s.setSt b).rngBytes = s.rngBytes := rfl
@[simp] theorem State.setSt_drawCount (b : Byte) : (s.setSt b).drawCount = s.drawCount := rfl

/-! ## setFb -/

@[simp] theorem State.setFb_v (fb : Framebuffer) : (s.setFb fb).v = s.v := rfl
@[simp] theorem State.setFb_i (fb : Framebuffer) : (s.setFb fb).i = s.i := rfl
@[simp] theorem State.setFb_pc (fb : Framebuffer) : (s.setFb fb).pc = s.pc := rfl
@[simp] theorem State.setFb_stack (fb : Framebuffer) : (s.setFb fb).stack = s.stack := rfl
@[simp] theorem State.setFb_dt (fb : Framebuffer) : (s.setFb fb).dt = s.dt := rfl
@[simp] theorem State.setFb_st (fb : Framebuffer) : (s.setFb fb).st = s.st := rfl
@[simp] theorem State.setFb_mem (fb : Framebuffer) : (s.setFb fb).mem = s.mem := rfl
@[simp] theorem State.setFb_fb (fb : Framebuffer) : (s.setFb fb).fb = fb := rfl
@[simp] theorem State.setFb_keys (fb : Framebuffer) : (s.setFb fb).keys = s.keys := rfl
@[simp] theorem State.setFb_status (fb : Framebuffer) : (s.setFb fb).status = s.status := rfl
@[simp] theorem State.setFb_cfg (fb : Framebuffer) : (s.setFb fb).cfg = s.cfg := rfl
@[simp] theorem State.setFb_fbOut (fb : Framebuffer) : (s.setFb fb).fbOut = s.fbOut := rfl
@[simp] theorem State.setFb_toneActive (fb : Framebuffer) : (s.setFb fb).toneActive = s.toneActive := rfl
@[simp] theorem State.setFb_phase (fb : Framebuffer) : (s.setFb fb).phase = s.phase := rfl
@[simp] theorem State.setFb_frameInputs (fb : Framebuffer) : (s.setFb fb).frameInputs = s.frameInputs := rfl
@[simp] theorem State.setFb_frameCount (fb : Framebuffer) : (s.setFb fb).frameCount = s.frameCount := rfl
@[simp] theorem State.setFb_rngBytes (fb : Framebuffer) : (s.setFb fb).rngBytes = s.rngBytes := rfl
@[simp] theorem State.setFb_drawCount (fb : Framebuffer) : (s.setFb fb).drawCount = s.drawCount := rfl

/-! ## setByte -/

@[simp] theorem State.setByte_v (a : Nat) (b : Byte) : (s.setByte a b).v = s.v := rfl
@[simp] theorem State.setByte_i (a : Nat) (b : Byte) : (s.setByte a b).i = s.i := rfl
@[simp] theorem State.setByte_pc (a : Nat) (b : Byte) : (s.setByte a b).pc = s.pc := rfl
@[simp] theorem State.setByte_stack (a : Nat) (b : Byte) : (s.setByte a b).stack = s.stack := rfl
@[simp] theorem State.setByte_dt (a : Nat) (b : Byte) : (s.setByte a b).dt = s.dt := rfl
@[simp] theorem State.setByte_st (a : Nat) (b : Byte) : (s.setByte a b).st = s.st := rfl
@[simp] theorem State.setByte_mem (a : Nat) (b : Byte) : (s.setByte a b).mem = Memory.put (unlistedByte s.cfg a) a b s.mem := rfl
@[simp] theorem State.setByte_fb (a : Nat) (b : Byte) : (s.setByte a b).fb = s.fb := rfl
@[simp] theorem State.setByte_keys (a : Nat) (b : Byte) : (s.setByte a b).keys = s.keys := rfl
@[simp] theorem State.setByte_status (a : Nat) (b : Byte) : (s.setByte a b).status = s.status := rfl
@[simp] theorem State.setByte_cfg (a : Nat) (b : Byte) : (s.setByte a b).cfg = s.cfg := rfl
@[simp] theorem State.setByte_fbOut (a : Nat) (b : Byte) : (s.setByte a b).fbOut = s.fbOut := rfl
@[simp] theorem State.setByte_toneActive (a : Nat) (b : Byte) : (s.setByte a b).toneActive = s.toneActive := rfl
@[simp] theorem State.setByte_phase (a : Nat) (b : Byte) : (s.setByte a b).phase = s.phase := rfl
@[simp] theorem State.setByte_frameInputs (a : Nat) (b : Byte) : (s.setByte a b).frameInputs = s.frameInputs := rfl
@[simp] theorem State.setByte_frameCount (a : Nat) (b : Byte) : (s.setByte a b).frameCount = s.frameCount := rfl
@[simp] theorem State.setByte_rngBytes (a : Nat) (b : Byte) : (s.setByte a b).rngBytes = s.rngBytes := rfl
@[simp] theorem State.setByte_drawCount (a : Nat) (b : Byte) : (s.setByte a b).drawCount = s.drawCount := rfl

/-! ## loadRegs -/

@[simp] theorem State.loadRegs_v (bs : List Byte) : (s.loadRegs bs).v = loadFrom s.v 0 bs := rfl
@[simp] theorem State.loadRegs_i (bs : List Byte) : (s.loadRegs bs).i = s.i := rfl
@[simp] theorem State.loadRegs_pc (bs : List Byte) : (s.loadRegs bs).pc = s.pc := rfl
@[simp] theorem State.loadRegs_stack (bs : List Byte) : (s.loadRegs bs).stack = s.stack := rfl
@[simp] theorem State.loadRegs_dt (bs : List Byte) : (s.loadRegs bs).dt = s.dt := rfl
@[simp] theorem State.loadRegs_st (bs : List Byte) : (s.loadRegs bs).st = s.st := rfl
@[simp] theorem State.loadRegs_mem (bs : List Byte) : (s.loadRegs bs).mem = s.mem := rfl
@[simp] theorem State.loadRegs_fb (bs : List Byte) : (s.loadRegs bs).fb = s.fb := rfl
@[simp] theorem State.loadRegs_keys (bs : List Byte) : (s.loadRegs bs).keys = s.keys := rfl
@[simp] theorem State.loadRegs_status (bs : List Byte) : (s.loadRegs bs).status = s.status := rfl
@[simp] theorem State.loadRegs_cfg (bs : List Byte) : (s.loadRegs bs).cfg = s.cfg := rfl
@[simp] theorem State.loadRegs_fbOut (bs : List Byte) : (s.loadRegs bs).fbOut = s.fbOut := rfl
@[simp] theorem State.loadRegs_toneActive (bs : List Byte) : (s.loadRegs bs).toneActive = s.toneActive := rfl
@[simp] theorem State.loadRegs_phase (bs : List Byte) : (s.loadRegs bs).phase = s.phase := rfl
@[simp] theorem State.loadRegs_frameInputs (bs : List Byte) : (s.loadRegs bs).frameInputs = s.frameInputs := rfl
@[simp] theorem State.loadRegs_frameCount (bs : List Byte) : (s.loadRegs bs).frameCount = s.frameCount := rfl
@[simp] theorem State.loadRegs_rngBytes (bs : List Byte) : (s.loadRegs bs).rngBytes = s.rngBytes := rfl
@[simp] theorem State.loadRegs_drawCount (bs : List Byte) : (s.loadRegs bs).drawCount = s.drawCount := rfl

/-! ## setPhase -/

@[simp] theorem State.setPhase_v (p : Phase) : (s.setPhase p).v = s.v := rfl
@[simp] theorem State.setPhase_i (p : Phase) : (s.setPhase p).i = s.i := rfl
@[simp] theorem State.setPhase_pc (p : Phase) : (s.setPhase p).pc = s.pc := rfl
@[simp] theorem State.setPhase_stack (p : Phase) : (s.setPhase p).stack = s.stack := rfl
@[simp] theorem State.setPhase_dt (p : Phase) : (s.setPhase p).dt = s.dt := rfl
@[simp] theorem State.setPhase_st (p : Phase) : (s.setPhase p).st = s.st := rfl
@[simp] theorem State.setPhase_mem (p : Phase) : (s.setPhase p).mem = s.mem := rfl
@[simp] theorem State.setPhase_fb (p : Phase) : (s.setPhase p).fb = s.fb := rfl
@[simp] theorem State.setPhase_keys (p : Phase) : (s.setPhase p).keys = s.keys := rfl
@[simp] theorem State.setPhase_status (p : Phase) : (s.setPhase p).status = s.status := rfl
@[simp] theorem State.setPhase_cfg (p : Phase) : (s.setPhase p).cfg = s.cfg := rfl
@[simp] theorem State.setPhase_fbOut (p : Phase) : (s.setPhase p).fbOut = s.fbOut := rfl
@[simp] theorem State.setPhase_toneActive (p : Phase) : (s.setPhase p).toneActive = s.toneActive := rfl
@[simp] theorem State.setPhase_phase (p : Phase) : (s.setPhase p).phase = p := rfl
@[simp] theorem State.setPhase_frameInputs (p : Phase) : (s.setPhase p).frameInputs = s.frameInputs := rfl
@[simp] theorem State.setPhase_frameCount (p : Phase) : (s.setPhase p).frameCount = s.frameCount := rfl
@[simp] theorem State.setPhase_rngBytes (p : Phase) : (s.setPhase p).rngBytes = s.rngBytes := rfl
@[simp] theorem State.setPhase_drawCount (p : Phase) : (s.setPhase p).drawCount = s.drawCount := rfl

/-! ## latchKeys -/

@[simp] theorem State.latchKeys_v (k : BitVec 16) : (s.latchKeys k).v = s.v := rfl
@[simp] theorem State.latchKeys_i (k : BitVec 16) : (s.latchKeys k).i = s.i := rfl
@[simp] theorem State.latchKeys_pc (k : BitVec 16) : (s.latchKeys k).pc = s.pc := rfl
@[simp] theorem State.latchKeys_stack (k : BitVec 16) : (s.latchKeys k).stack = s.stack := rfl
@[simp] theorem State.latchKeys_dt (k : BitVec 16) : (s.latchKeys k).dt = s.dt := rfl
@[simp] theorem State.latchKeys_st (k : BitVec 16) : (s.latchKeys k).st = s.st := rfl
@[simp] theorem State.latchKeys_mem (k : BitVec 16) : (s.latchKeys k).mem = s.mem := rfl
@[simp] theorem State.latchKeys_fb (k : BitVec 16) : (s.latchKeys k).fb = s.fb := rfl
@[simp] theorem State.latchKeys_keys (k : BitVec 16) : (s.latchKeys k).keys = k := rfl
@[simp] theorem State.latchKeys_status (k : BitVec 16) : (s.latchKeys k).status = s.status := rfl
@[simp] theorem State.latchKeys_cfg (k : BitVec 16) : (s.latchKeys k).cfg = s.cfg := rfl
@[simp] theorem State.latchKeys_fbOut (k : BitVec 16) : (s.latchKeys k).fbOut = s.fbOut := rfl
@[simp] theorem State.latchKeys_toneActive (k : BitVec 16) : (s.latchKeys k).toneActive = s.toneActive := rfl
@[simp] theorem State.latchKeys_phase (k : BitVec 16) : (s.latchKeys k).phase = s.phase := rfl
@[simp] theorem State.latchKeys_frameInputs (k : BitVec 16) : (s.latchKeys k).frameInputs = s.frameInputs := rfl
@[simp] theorem State.latchKeys_frameCount (k : BitVec 16) : (s.latchKeys k).frameCount = s.frameCount := rfl
@[simp] theorem State.latchKeys_rngBytes (k : BitVec 16) : (s.latchKeys k).rngBytes = s.rngBytes := rfl
@[simp] theorem State.latchKeys_drawCount (k : BitVec 16) : (s.latchKeys k).drawCount = s.drawCount := rfl

/-! ## halt -/

@[simp] theorem State.halt_v : (s.halt).v = s.v := rfl
@[simp] theorem State.halt_i : (s.halt).i = s.i := rfl
@[simp] theorem State.halt_pc : (s.halt).pc = s.pc := rfl
@[simp] theorem State.halt_stack : (s.halt).stack = s.stack := rfl
@[simp] theorem State.halt_dt : (s.halt).dt = s.dt := rfl
@[simp] theorem State.halt_st : (s.halt).st = s.st := rfl
@[simp] theorem State.halt_mem : (s.halt).mem = s.mem := rfl
@[simp] theorem State.halt_fb : (s.halt).fb = s.fb := rfl
@[simp] theorem State.halt_keys : (s.halt).keys = s.keys := rfl
@[simp] theorem State.halt_status : (s.halt).status = .halted := rfl
@[simp] theorem State.halt_cfg : (s.halt).cfg = s.cfg := rfl
@[simp] theorem State.halt_fbOut : (s.halt).fbOut = s.fbOut := rfl
@[simp] theorem State.halt_toneActive : (s.halt).toneActive = s.toneActive := rfl
@[simp] theorem State.halt_phase : (s.halt).phase = s.phase := rfl
@[simp] theorem State.halt_frameInputs : (s.halt).frameInputs = s.frameInputs := rfl
@[simp] theorem State.halt_frameCount : (s.halt).frameCount = s.frameCount := rfl
@[simp] theorem State.halt_rngBytes : (s.halt).rngBytes = s.rngBytes := rfl
@[simp] theorem State.halt_drawCount : (s.halt).drawCount = s.drawCount := rfl

/-! ## tick -/

@[simp] theorem State.tick_v : (s.tick).v = s.v := rfl
@[simp] theorem State.tick_i : (s.tick).i = s.i := rfl
@[simp] theorem State.tick_pc : (s.tick).pc = s.pc := rfl
@[simp] theorem State.tick_stack : (s.tick).stack = s.stack := rfl
@[simp] theorem State.tick_dt : (s.tick).dt = tickByte s.dt := rfl
@[simp] theorem State.tick_st : (s.tick).st = tickByte s.st := rfl
@[simp] theorem State.tick_mem : (s.tick).mem = s.mem := rfl
@[simp] theorem State.tick_fb : (s.tick).fb = s.fb := rfl
@[simp] theorem State.tick_keys : (s.tick).keys = s.keys := rfl
@[simp] theorem State.tick_status : (s.tick).status = s.status := rfl
@[simp] theorem State.tick_cfg : (s.tick).cfg = s.cfg := rfl
@[simp] theorem State.tick_fbOut : (s.tick).fbOut = s.fbOut := rfl
@[simp] theorem State.tick_toneActive : (s.tick).toneActive = s.toneActive := rfl
@[simp] theorem State.tick_phase : (s.tick).phase = s.phase := rfl
@[simp] theorem State.tick_frameInputs : (s.tick).frameInputs = s.frameInputs := rfl
@[simp] theorem State.tick_frameCount : (s.tick).frameCount = s.frameCount := rfl
@[simp] theorem State.tick_rngBytes : (s.tick).rngBytes = s.rngBytes := rfl
@[simp] theorem State.tick_drawCount : (s.tick).drawCount = s.drawCount := rfl

/-! ## publish -/

@[simp] theorem State.publish_v : (s.publish).v = s.v := rfl
@[simp] theorem State.publish_i : (s.publish).i = s.i := rfl
@[simp] theorem State.publish_pc : (s.publish).pc = s.pc := rfl
@[simp] theorem State.publish_stack : (s.publish).stack = s.stack := rfl
@[simp] theorem State.publish_dt : (s.publish).dt = s.dt := rfl
@[simp] theorem State.publish_st : (s.publish).st = s.st := rfl
@[simp] theorem State.publish_mem : (s.publish).mem = s.mem := rfl
@[simp] theorem State.publish_fb : (s.publish).fb = s.fb := rfl
@[simp] theorem State.publish_keys : (s.publish).keys = s.keys := rfl
@[simp] theorem State.publish_status : (s.publish).status = s.status := rfl
@[simp] theorem State.publish_cfg : (s.publish).cfg = s.cfg := rfl
@[simp] theorem State.publish_fbOut : (s.publish).fbOut = s.fb := rfl
@[simp] theorem State.publish_toneActive : (s.publish).toneActive = (s.st != 0) := rfl
@[simp] theorem State.publish_phase : (s.publish).phase = .top := rfl
@[simp] theorem State.publish_frameInputs : (s.publish).frameInputs = s.frameInputs := rfl
@[simp] theorem State.publish_frameCount : (s.publish).frameCount = s.frameCount := rfl
@[simp] theorem State.publish_rngBytes : (s.publish).rngBytes = s.rngBytes := rfl
@[simp] theorem State.publish_drawCount : (s.publish).drawCount = s.drawCount := rfl

/-! ## afterInput -/

@[simp] theorem State.afterInput_v : (s.afterInput).v = s.v := rfl
@[simp] theorem State.afterInput_i : (s.afterInput).i = s.i := rfl
@[simp] theorem State.afterInput_pc : (s.afterInput).pc = s.pc := rfl
@[simp] theorem State.afterInput_stack : (s.afterInput).stack = s.stack := rfl
@[simp] theorem State.afterInput_dt : (s.afterInput).dt = s.dt := rfl
@[simp] theorem State.afterInput_st : (s.afterInput).st = s.st := rfl
@[simp] theorem State.afterInput_mem : (s.afterInput).mem = s.mem := rfl
@[simp] theorem State.afterInput_fb : (s.afterInput).fb = s.fb := rfl
@[simp] theorem State.afterInput_keys : (s.afterInput).keys = s.keys := rfl
@[simp] theorem State.afterInput_status : (s.afterInput).status = s.status := rfl
@[simp] theorem State.afterInput_cfg : (s.afterInput).cfg = s.cfg := rfl
@[simp] theorem State.afterInput_fbOut : (s.afterInput).fbOut = s.fbOut := rfl
@[simp] theorem State.afterInput_toneActive : (s.afterInput).toneActive = s.toneActive := rfl
@[simp] theorem State.afterInput_phase : (s.afterInput).phase = s.phase := rfl
@[simp] theorem State.afterInput_frameInputs : (s.afterInput).frameInputs = s.frameInputs.tail := rfl
@[simp] theorem State.afterInput_frameCount : (s.afterInput).frameCount = s.frameCount + 1 := rfl
@[simp] theorem State.afterInput_rngBytes : (s.afterInput).rngBytes = s.rngBytes := rfl
@[simp] theorem State.afterInput_drawCount : (s.afterInput).drawCount = s.drawCount := rfl

/-! ## afterDraw -/

@[simp] theorem State.afterDraw_v : (s.afterDraw).v = s.v := rfl
@[simp] theorem State.afterDraw_i : (s.afterDraw).i = s.i := rfl
@[simp] theorem State.afterDraw_pc : (s.afterDraw).pc = s.pc := rfl
@[simp] theorem State.afterDraw_stack : (s.afterDraw).stack = s.stack := rfl
@[simp] theorem State.afterDraw_dt : (s.afterDraw).dt = s.dt := rfl
@[simp] theorem State.afterDraw_st : (s.afterDraw).st = s.st := rfl
@[simp] theorem State.afterDraw_mem : (s.afterDraw).mem = s.mem := rfl
@[simp] theorem State.afterDraw_fb : (s.afterDraw).fb = s.fb := rfl
@[simp] theorem State.afterDraw_keys : (s.afterDraw).keys = s.keys := rfl
@[simp] theorem State.afterDraw_status : (s.afterDraw).status = s.status := rfl
@[simp] theorem State.afterDraw_cfg : (s.afterDraw).cfg = s.cfg := rfl
@[simp] theorem State.afterDraw_fbOut : (s.afterDraw).fbOut = s.fbOut := rfl
@[simp] theorem State.afterDraw_toneActive : (s.afterDraw).toneActive = s.toneActive := rfl
@[simp] theorem State.afterDraw_phase : (s.afterDraw).phase = s.phase := rfl
@[simp] theorem State.afterDraw_frameInputs : (s.afterDraw).frameInputs = s.frameInputs := rfl
@[simp] theorem State.afterDraw_frameCount : (s.afterDraw).frameCount = s.frameCount := rfl
@[simp] theorem State.afterDraw_rngBytes : (s.afterDraw).rngBytes = s.rngBytes.tail := rfl
@[simp] theorem State.afterDraw_drawCount : (s.afterDraw).drawCount = s.drawCount + 1 := rfl

/-! ## enterFault -/

@[simp] theorem State.enterFault_v (r : FaultReport) : (s.enterFault r).v = (Config.freeResidue s r).v := rfl
@[simp] theorem State.enterFault_i (r : FaultReport) : (s.enterFault r).i = (Config.freeResidue s r).i := rfl
@[simp] theorem State.enterFault_pc (r : FaultReport) : (s.enterFault r).pc = (Config.freeResidue s r).pc := rfl
@[simp] theorem State.enterFault_stack (r : FaultReport) : (s.enterFault r).stack = (Config.freeResidue s r).stack.take s.cfg.stackCapacity := rfl
@[simp] theorem State.enterFault_dt (r : FaultReport) : (s.enterFault r).dt = (Config.freeResidue s r).dt := rfl
@[simp] theorem State.enterFault_st (r : FaultReport) : (s.enterFault r).st = (Config.freeResidue s r).st := rfl
@[simp] theorem State.enterFault_mem (r : FaultReport) : (s.enterFault r).mem =
    Memory.ofBytes s.cfg (Config.freeResidue s r).byteAt := rfl
@[simp] theorem State.enterFault_fb (r : FaultReport) : (s.enterFault r).fb = (Config.freeResidue s r).fb := rfl
@[simp] theorem State.enterFault_keys (r : FaultReport) : (s.enterFault r).keys = (Config.freeResidue s r).keys := rfl
@[simp] theorem State.enterFault_status (r : FaultReport) : (s.enterFault r).status = .faulted r := rfl
@[simp] theorem State.enterFault_cfg (r : FaultReport) : (s.enterFault r).cfg = s.cfg := rfl
@[simp] theorem State.enterFault_fbOut (r : FaultReport) : (s.enterFault r).fbOut = s.fbOut := rfl
@[simp] theorem State.enterFault_toneActive (r : FaultReport) : (s.enterFault r).toneActive = s.toneActive := rfl
@[simp] theorem State.enterFault_phase (r : FaultReport) : (s.enterFault r).phase = .top := rfl
@[simp] theorem State.enterFault_frameInputs (r : FaultReport) : (s.enterFault r).frameInputs = s.frameInputs := rfl
@[simp] theorem State.enterFault_frameCount (r : FaultReport) : (s.enterFault r).frameCount = s.frameCount := rfl
@[simp] theorem State.enterFault_rngBytes (r : FaultReport) : (s.enterFault r).rngBytes = s.rngBytes := rfl
@[simp] theorem State.enterFault_drawCount (r : FaultReport) : (s.enterFault r).drawCount = s.drawCount := rfl

/-! ## Conditional updates -/

@[simp] theorem State.skipIf_v (c : Bool) : (s.skipIf c).v = s.v := by
  unfold State.skipIf; split <;> rfl
@[simp] theorem State.skipIf_i (c : Bool) : (s.skipIf c).i = s.i := by
  unfold State.skipIf; split <;> rfl
@[simp] theorem State.skipIf_stack (c : Bool) : (s.skipIf c).stack = s.stack := by
  unfold State.skipIf; split <;> rfl
@[simp] theorem State.skipIf_dt (c : Bool) : (s.skipIf c).dt = s.dt := by
  unfold State.skipIf; split <;> rfl
@[simp] theorem State.skipIf_st (c : Bool) : (s.skipIf c).st = s.st := by
  unfold State.skipIf; split <;> rfl
@[simp] theorem State.skipIf_mem (c : Bool) : (s.skipIf c).mem = s.mem := by
  unfold State.skipIf; split <;> rfl
@[simp] theorem State.skipIf_fb (c : Bool) : (s.skipIf c).fb = s.fb := by
  unfold State.skipIf; split <;> rfl
@[simp] theorem State.skipIf_keys (c : Bool) : (s.skipIf c).keys = s.keys := by
  unfold State.skipIf; split <;> rfl
@[simp] theorem State.skipIf_status (c : Bool) : (s.skipIf c).status = s.status := by
  unfold State.skipIf; split <;> rfl
@[simp] theorem State.skipIf_cfg (c : Bool) : (s.skipIf c).cfg = s.cfg := by
  unfold State.skipIf; split <;> rfl
@[simp] theorem State.skipIf_fbOut (c : Bool) : (s.skipIf c).fbOut = s.fbOut := by
  unfold State.skipIf; split <;> rfl
@[simp] theorem State.skipIf_toneActive (c : Bool) : (s.skipIf c).toneActive = s.toneActive := by
  unfold State.skipIf; split <;> rfl
@[simp] theorem State.skipIf_phase (c : Bool) : (s.skipIf c).phase = s.phase := by
  unfold State.skipIf; split <;> rfl
@[simp] theorem State.skipIf_frameInputs (c : Bool) : (s.skipIf c).frameInputs = s.frameInputs := by
  unfold State.skipIf; split <;> rfl
@[simp] theorem State.skipIf_frameCount (c : Bool) : (s.skipIf c).frameCount = s.frameCount := by
  unfold State.skipIf; split <;> rfl
@[simp] theorem State.skipIf_rngBytes (c : Bool) : (s.skipIf c).rngBytes = s.rngBytes := by
  unfold State.skipIf; split <;> rfl
@[simp] theorem State.skipIf_drawCount (c : Bool) : (s.skipIf c).drawCount = s.drawCount := by
  unfold State.skipIf; split <;> rfl
@[simp] theorem State.advanceI_v (x : Reg) : (s.advanceI x).v = s.v := by
  unfold State.advanceI; split <;> rfl
@[simp] theorem State.advanceI_pc (x : Reg) : (s.advanceI x).pc = s.pc := by
  unfold State.advanceI; split <;> rfl
@[simp] theorem State.advanceI_stack (x : Reg) : (s.advanceI x).stack = s.stack := by
  unfold State.advanceI; split <;> rfl
@[simp] theorem State.advanceI_dt (x : Reg) : (s.advanceI x).dt = s.dt := by
  unfold State.advanceI; split <;> rfl
@[simp] theorem State.advanceI_st (x : Reg) : (s.advanceI x).st = s.st := by
  unfold State.advanceI; split <;> rfl
@[simp] theorem State.advanceI_mem (x : Reg) : (s.advanceI x).mem = s.mem := by
  unfold State.advanceI; split <;> rfl
@[simp] theorem State.advanceI_fb (x : Reg) : (s.advanceI x).fb = s.fb := by
  unfold State.advanceI; split <;> rfl
@[simp] theorem State.advanceI_keys (x : Reg) : (s.advanceI x).keys = s.keys := by
  unfold State.advanceI; split <;> rfl
@[simp] theorem State.advanceI_status (x : Reg) : (s.advanceI x).status = s.status := by
  unfold State.advanceI; split <;> rfl
@[simp] theorem State.advanceI_cfg (x : Reg) : (s.advanceI x).cfg = s.cfg := by
  unfold State.advanceI; split <;> rfl
@[simp] theorem State.advanceI_fbOut (x : Reg) : (s.advanceI x).fbOut = s.fbOut := by
  unfold State.advanceI; split <;> rfl
@[simp] theorem State.advanceI_toneActive (x : Reg) : (s.advanceI x).toneActive = s.toneActive := by
  unfold State.advanceI; split <;> rfl
@[simp] theorem State.advanceI_phase (x : Reg) : (s.advanceI x).phase = s.phase := by
  unfold State.advanceI; split <;> rfl
@[simp] theorem State.advanceI_frameInputs (x : Reg) : (s.advanceI x).frameInputs = s.frameInputs := by
  unfold State.advanceI; split <;> rfl
@[simp] theorem State.advanceI_frameCount (x : Reg) : (s.advanceI x).frameCount = s.frameCount := by
  unfold State.advanceI; split <;> rfl
@[simp] theorem State.advanceI_rngBytes (x : Reg) : (s.advanceI x).rngBytes = s.rngBytes := by
  unfold State.advanceI; split <;> rfl
@[simp] theorem State.advanceI_drawCount (x : Reg) : (s.advanceI x).drawCount = s.drawCount := by
  unfold State.advanceI; split <;> rfl

@[simp] theorem State.skipIf_pc (c : Bool) : (s.skipIf c).pc = if c then s.pc + 2 else s.pc := by
  unfold State.skipIf; split <;> rfl

@[simp] theorem State.advanceI_i (x : Reg) :
    (s.advanceI x).i = if s.cfg.indexAdvance then s.i + BitVec.ofNat 16 (x.val + 1) else s.i := by
  unfold State.advanceI; split <;> rfl

end Sys2Proof.Machine
end

