-- ==== Sys2Proof/Laws/Display.lean ====
section
/-! SUPPORT. Framebuffer: pixels after a clear, a toggle and a whole draw, and the places a draw toggles. -/

namespace Sys2Proof.Machine

@[simp] theorem Framebuffer.pixel_clear (p : Place) : Framebuffer.clear.pixel p = false := by
  simp [Framebuffer.pixel, Framebuffer.clear]

@[simp] theorem Framebuffer.pixel_toggle (fb : Framebuffer) (p q : Place) :
    (fb.toggle p).pixel q = if p = q then !(fb.pixel q) else fb.pixel q := by
  obtain ⟨py, px⟩ := p
  obtain ⟨qy, qx⟩ := q
  by_cases hy : py = qy
  · subst hy
    by_cases hx : px = qx
    · subst hx
      simp [Framebuffer.pixel, Framebuffer.toggle]
    · have : ¬ px.val = qx.val := fun h => hx (Fin.ext h)
      simp [Framebuffer.pixel, Framebuffer.toggle, hx, Vector.getElem_set_ne, this]
  · have : ¬ py.val = qy.val := fun h => hy (Fin.ext h)
    simp [Framebuffer.pixel, Framebuffer.toggle, hy, Vector.getElem_set_ne, this]

/-- Framebuffers with the same pixels are equal. -/
theorem Framebuffer.ext_pixel {a b : Framebuffer} (h : ∀ p, a.pixel p = b.pixel p) : a = b := by
  apply Vector.ext
  intro y hy
  apply Vector.ext
  intro x hx
  exact h (⟨y, hy⟩, ⟨x, hx⟩)

/-- A place that a draw does not toggle keeps its pixel. -/
theorem toggleAll_pixel_not_mem {ps : List Place} {q : Place} (h : q ∉ ps) (fb : Framebuffer) (hit : Bool) :
    (toggleAll ps fb hit).1.pixel q = fb.pixel q := by
  induction ps generalizing fb hit with
  | nil => rfl
  | cons p ps ih =>
    rw [List.mem_cons, not_or] at h
    rw [toggleAll, ih h.2, Framebuffer.pixel_toggle, if_neg (Ne.symm h.1)]

/-- A place that a draw toggles once has its pixel turned over. -/
theorem toggleAll_pixel_mem {ps : List Place} {q : Place} (hn : ps.Nodup) (h : q ∈ ps) (fb : Framebuffer)
    (hit : Bool) : (toggleAll ps fb hit).1.pixel q = !(fb.pixel q) := by
  induction ps generalizing fb hit with
  | nil => cases h
  | cons p ps ih =>
    rw [List.nodup_cons] at hn
    rw [toggleAll]
    rcases List.mem_cons.mp h with rfl | h
    · rw [toggleAll_pixel_not_mem hn.1, Framebuffer.pixel_toggle, if_pos rfl]
    · have hne : p ≠ q := fun e => hn.1 (e ▸ h)
      rw [ih hn.2 h, Framebuffer.pixel_toggle, if_neg hne]

/-- The hit flag of a draw that toggles each place once: some place held a set pixel. -/
theorem toggleAll_hit {ps : List Place} (hn : ps.Nodup) (fb : Framebuffer) (hit : Bool) :
    (toggleAll ps fb hit).2 = (hit || ps.any fb.pixel) := by
  induction ps generalizing fb hit with
  | nil => simp [toggleAll]
  | cons p ps ih =>
    rw [List.nodup_cons] at hn
    have : ps.any (fb.toggle p).pixel = ps.any fb.pixel := by
      rw [Bool.eq_iff_iff, List.any_eq_true, List.any_eq_true]
      constructor <;> rintro ⟨q, hq, hp⟩ <;> refine ⟨q, hq, ?_⟩ <;>
        have hne : p ≠ q := (fun e => hn.1 (e ▸ hq)) <;>
        rw [Framebuffer.pixel_toggle, if_neg hne] at * <;> exact hp
    rw [toggleAll, ih hn.2, this, List.any_cons, Bool.or_assoc]

theorem mem_rowCells {r : Nat} {b : Byte} {p : Nat × Nat} :
    p ∈ rowCells r b ↔ p.1 = r ∧ p.2 < 8 ∧ b.getLsbD (7 - p.2) = true := by
  obtain ⟨r', c⟩ := p
  simp only [rowCells, List.mem_filterMap, List.mem_range]
  constructor
  · rintro ⟨a, ha, h⟩
    split at h
    · cases h; exact ⟨rfl, ha, by assumption⟩
    · cases h
  · rintro ⟨rfl, hc, hb⟩
    exact ⟨c, hc, if_pos hb⟩

theorem nodup_rowCells (r : Nat) (b : Byte) : (rowCells r b).Nodup := by
  unfold rowCells
  refine List.Nodup.filterMap ?_ List.nodup_range
  intro a a' c hc hc'
  simp only [Option.mem_def] at hc hc'
  split at hc
  · split at hc'
    · cases hc; cases hc'; rfl
    · cases hc'
  · cases hc

theorem mem_spriteCells {rows : List Byte} {r : Nat} {p : Nat × Nat} :
    p ∈ spriteCells r rows ↔
      ∃ h : r ≤ p.1 ∧ p.1 < r + rows.length, p.2 < 8 ∧ (rows[p.1 - r]'(by omega)).getLsbD (7 - p.2) = true := by
  induction rows generalizing r with
  | nil => simp [spriteCells]
  | cons b bs ih =>
    rw [spriteCells, List.mem_append, mem_rowCells, ih]
    constructor
    · rintro (⟨h1, h2, h3⟩ | ⟨h, h2, h3⟩)
      · exact ⟨⟨by omega, by simp; omega⟩, h2, by simpa [h1] using h3⟩
      · refine ⟨⟨by omega, by simp; omega⟩, h2, ?_⟩
        have : p.1 - r = (p.1 - (r + 1)) + 1 := by omega
        simpa [this] using h3
    · rintro ⟨h, h2, h3⟩
      by_cases h1 : p.1 = r
      · left; exact ⟨h1, h2, by simpa [h1] using h3⟩
      · right
        refine ⟨⟨by omega, by simp at h; omega⟩, h2, ?_⟩
        have : p.1 - r = (p.1 - (r + 1)) + 1 := by omega
        simpa [this] using h3

theorem nodup_spriteCells (rows : List Byte) (r : Nat) : (spriteCells r rows).Nodup := by
  induction rows generalizing r with
  | nil => exact List.nodup_nil
  | cons b bs ih =>
    rw [spriteCells]
    refine List.Nodup.append (nodup_rowCells r b) (ih (r + 1)) ?_
    intro p hp hq
    have h1 := (mem_rowCells.mp hp).1
    obtain ⟨h2, _⟩ := mem_spriteCells.mp hq
    omega

/-- The machine's placement of a sprite's pixel is R100's. -/
theorem target_eq_some {wrap : Bool} {vx vy : Byte} {r c : Nat} {p : Place} :
    target wrap vx vy r c = some p ↔ LandsAt wrap vx vy r c p := by
  obtain ⟨y, x⟩ := p
  unfold target LandsAt
  cases wrap
  · simp only [Bool.false_eq_true, if_false]
    split
    · simp only [Option.some.injEq, Prod.mk.injEq, Fin.ext_iff]
      constructor <;> rintro ⟨h1, h2⟩ <;> exact ⟨h1.symm, h2.symm⟩
    · rename_i h
      have := x.isLt
      have := y.isLt
      constructor
      · intro h; cases h
      · rintro ⟨h1, h2⟩; exact absurd ⟨by omega, by omega⟩ h
  · simp only [if_true, Option.some.injEq, Prod.mk.injEq, Fin.ext_iff]
    constructor <;> rintro ⟨h1, h2⟩ <;> exact ⟨h1.symm, h2.symm⟩

/-- No two pixels of one draw land on the same place: a sprite is at most 8 wide and 15 tall (R100). -/
theorem nodup_drawTargets {rows : List Byte} (h : rows.length ≤ 32) (wrap : Bool) (vx vy : Byte) :
    (drawTargets wrap vx vy rows).Nodup := by
  unfold drawTargets
  rw [List.nodup_iff_pairwise_ne, List.pairwise_filterMap]
  refine (List.nodup_iff_pairwise_ne.mp (nodup_spriteCells rows 0)).imp_of_mem ?_
  rintro ⟨r, c⟩ ⟨r', c'⟩ hm hm' hne p hp p' hp' rfl
  obtain ⟨hr, hc, _⟩ := mem_spriteCells.mp hm
  obtain ⟨hr', hc', _⟩ := mem_spriteCells.mp hm'
  rw [target_eq_some] at hp hp'
  apply hne
  simp only at hr hc hr' hc' hp hp'
  unfold LandsAt at hp hp'
  rw [Prod.mk.injEq]
  cases wrap <;> simp only [if_true, Bool.false_eq_true, if_false] at hp hp' <;> omega

/-- The places a draw toggles are those R100 and R101 say its set bits land on. -/
theorem mem_drawTargets {wrap : Bool} {vx vy : Byte} {rows : List Byte} {p : Place} :
    p ∈ drawTargets wrap vx vy rows ↔
      ∃ r c, ∃ h : r < rows.length, c < 8 ∧ rows[r].getLsbD (7 - c) = true ∧ LandsAt wrap vx vy r c p := by
  unfold drawTargets
  simp only [List.mem_filterMap, Prod.exists, target_eq_some, mem_spriteCells]
  constructor
  · rintro ⟨r, c, ⟨h, hc, hb⟩, hl⟩
    exact ⟨r, c, by omega, hc, by simpa using hb, hl⟩
  · rintro ⟨r, c, h, hc, hb, hl⟩
    exact ⟨r, c, ⟨by omega, hc, by simpa using hb⟩, hl⟩

end Sys2Proof.Machine
end

