-- ==== Sys2Proof/Laws/Keys.lean ====
section
/-! SUPPORT. The set of pressed keys and the choice of one (R106). -/

namespace Sys2Proof.Machine

theorem mem_pressedKeys {keys : BitVec 16} {k : Key} : k ∈ pressedKeys keys ↔ keys.getLsbD k.val = true := by
  simp [pressedKeys]

theorem pressedKeys_eq_nil {keys : BitVec 16} : pressedKeys keys = [] ↔ keys = 0 := by
  constructor
  · intro h
    apply BitVec.eq_of_getLsbD_eq
    intro j hj
    have : (⟨j, hj⟩ : Key) ∉ pressedKeys keys := by rw [h]; exact List.not_mem_nil
    rw [mem_pressedKeys] at this
    simpa using this
  · rintro rfl
    rw [List.eq_nil_iff_forall_not_mem]
    intro k hk
    simpa using mem_pressedKeys.mp hk

/-- No key is chosen exactly from the empty set. -/
theorem keySelect_eq_none {cfg : Config} {keys : BitVec 16} : keySelect cfg keys = none ↔ keys = 0 := by
  rw [← pressedKeys_eq_nil]
  unfold keySelect
  split <;> simp_all

/-- A chosen key is a pressed one. -/
theorem keySelect_pressed {cfg : Config} {keys : BitVec 16} {k : Key} (h : keySelect cfg keys = some k) :
    keys.getLsbD k.val = true := by
  unfold keySelect at h
  split at h
  · cases h
  · rename_i k' hk
    cases h
    exact mem_pressedKeys.mp (by rw [hk]; simp)
  · rename_i k' _ _ hk
    cases h
    split
    · assumption
    · exact mem_pressedKeys.mp (by rw [hk]; simp)

end Sys2Proof.Machine
end

