-- ==== Sys2Proof/Laws/Registers.lean ====
section
/-! SUPPORT. Reading registers after the updates that write them, and after the bulk load. -/

namespace Sys2Proof.Machine

@[simp] theorem State.getV_setV (s : State) (r q : Reg) (b : Byte) :
    (s.setV r b).getV q = if r = q then b else s.getV q := by
  simp [State.getV, State.setV, Vector.getElem_set, Fin.ext_iff]

@[simp] theorem State.getV_setFlag (s : State) (q : Reg) (b : Bool) :
    (s.setFlag b).getV q = if vF = q then (if b then 1 else 0) else s.getV q :=
  s.getV_setV vF q _

/-- A state with the same register file reads the same registers. -/
theorem State.getV_congr {s t : State} (h : t.v = s.v) (q : Reg) : t.getV q = s.getV q := by
  simp [State.getV, h]

theorem loadFrom_get (bs : List Byte) (v : Vector Byte 16) (k j : Nat) (hj : j < 16) :
    (loadFrom v k bs)[j] = if h : k ≤ j ∧ j < k + bs.length then bs[j - k] else v[j] := by
  induction bs generalizing v k with
  | nil =>
    have : ¬ (k ≤ j ∧ j < k + ([] : List Byte).length) := by simp
    rw [dif_neg this, loadFrom]
  | cons b bs ih =>
    rw [loadFrom, ih]
    by_cases h1 : k + 1 ≤ j ∧ j < k + 1 + bs.length
    · have h2 : k ≤ j ∧ j < k + (b :: bs).length := by simp; omega
      rw [dif_pos h1, dif_pos h2]
      have : j - k = (j - (k + 1)) + 1 := by omega
      simp [this]
    · rw [dif_neg h1, Vector.getElem_setIfInBounds]
      by_cases h3 : k = j
      · have h2 : k ≤ j ∧ j < k + (b :: bs).length := by simp; omega
        simp [h3]
      · have h2 : ¬ (k ≤ j ∧ j < k + (b :: bs).length) := by simp; omega
        rw [if_neg h3, dif_neg h2]

/-- After the bulk load of a list, the registers it reaches hold its bytes and the others are kept. -/
theorem State.getV_loadRegs (s : State) (bs : List Byte) (q : Reg) :
    (s.loadRegs bs).getV q = if h : q.val < bs.length then bs[q.val] else s.getV q := by
  have := loadFrom_get bs s.v 0 q.val q.isLt
  simpa [State.getV, State.loadRegs] using this

theorem State.regsUpTo_length (s : State) (x : Reg) : (s.regsUpTo x).length = x.val + 1 := by
  simp [State.regsUpTo]

theorem State.regsUpTo_get (s : State) (x : Reg) (k : Nat) (h : k < (s.regsUpTo x).length) :
    (s.regsUpTo x)[k] = s.getV ⟨k, by have := s.regsUpTo_length x; have := x.isLt; omega⟩ := by
  simp [State.regsUpTo, State.getV]

/-! ## Widening and ticking -/

theorem zext12_toNat (a : Addr12) : (zext12 a).toNat = a.toNat := by
  have := a.isLt
  simp [zext12]; omega

theorem zext8_toNat (b : Byte) : (zext8 b).toNat = b.toNat := by
  have := b.isLt
  simp [zext8]; omega

/-- A tick takes one off, and stays at 0. -/
theorem tickByte_toNat (b : Byte) : (tickByte b).toNat = b.toNat - 1 := by
  unfold tickByte
  split
  · rename_i h; subst h; rfl
  · rename_i h
    have h0 : b.toNat ≠ 0 := fun e => h (BitVec.eq_of_toNat_eq e)
    have := b.isLt
    rw [BitVec.toNat_sub]; simp; omega

/-- The result of an instruction with a flag, where the destination is not VF. -/
theorem State.setResult_result (s : State) {x : Reg} (h : x ≠ 15) (b : Byte) (f : Bool) :
    (s.setResult x b f).getV x = b := by
  unfold State.setResult
  rw [State.getV_setFlag, if_neg (Ne.symm h), State.getV_setV, if_pos rfl]

/-- The flag of an instruction with a flag, whatever the destination. -/
theorem State.setResult_flag (s : State) (x : Reg) (b : Byte) (f : Bool) :
    ((s.setResult x b f).getV 15).toNat = if f then 1 else 0 := by
  unfold State.setResult
  rw [State.getV_setFlag, if_pos rfl]
  cases f <;> rfl

end Sys2Proof.Machine
end

