-- ==== Sys2Proof/Laws/Memory.lean ====
section
/-! SUPPORT. Memory: a byte read after a write, the canonical form, and what the byte accesses do. -/

namespace Sys2Proof.Machine

/-! ## Cells -/

theorem Memory.get_filter_ne {d : Byte} {a b : Nat} (h : a ≠ b) (m : Memory) :
    Memory.get d a (m.filter fun c => c.1 ≠ b) = Memory.get d a m := by
  induction m with
  | nil => rfl
  | cons c m ih =>
    obtain ⟨k, v⟩ := c
    by_cases hk : k = b
    · subst hk
      simpa [Memory.get, h.symm, Ne.symm h] using ih
    · have : List.filter (fun c : Host.Cell => decide (c.1 ≠ b)) ((k, v) :: m)
          = (k, v) :: List.filter (fun c : Host.Cell => decide (c.1 ≠ b)) m := by simp [hk]
      rw [this, Memory.get, Memory.get, ih]

theorem Memory.get_of_not_mem {d : Byte} {a : Nat} {m : Memory} (h : ∀ c ∈ m, c.1 ≠ a) :
    Memory.get d a m = d := by
  induction m with
  | nil => rfl
  | cons c m ih =>
    obtain ⟨k, v⟩ := c
    have hk : k ≠ a := h (k, v) (by simp)
    rw [Memory.get, if_neg hk]
    exact ih fun c hc => h c (by simp [hc])

theorem Memory.get_place_ne {d : Byte} {a b : Nat} (h : a ≠ b) (v : Byte) (m : Memory) :
    Memory.get d a (Memory.place b v m) = Memory.get d a m := by
  induction m with
  | nil => simp [Memory.place, Memory.get, h.symm]
  | cons c m ih =>
    obtain ⟨k, w⟩ := c
    unfold Memory.place
    split
    · simp [Memory.get, h.symm]
    · simp only [Memory.get, ih]

theorem Memory.get_place_self {d : Byte} {a : Nat} (v : Byte) {m : Memory} (h : ∀ c ∈ m, c.1 ≠ a) :
    Memory.get d a (Memory.place a v m) = v := by
  induction m with
  | nil => simp [Memory.place, Memory.get]
  | cons c m ih =>
    obtain ⟨k, w⟩ := c
    have hk : k ≠ a := h (k, w) (by simp)
    unfold Memory.place
    split
    · simp [Memory.get]
    · rw [Memory.get, if_neg hk]
      exact ih fun c hc => h c (by simp [hc])

/-- A byte read where it was written is the byte written. -/
theorem Memory.get_put_self (d b : Byte) (a : Nat) (m : Memory) :
    Memory.get d a (Memory.put d a b m) = b := by
  have hn : ∀ c ∈ m.filter (fun c => decide (c.1 ≠ a)), c.1 ≠ a := by
    intro c hc; simpa using (List.mem_filter.mp hc).2
  unfold Memory.put
  split
  · rename_i h; rw [Memory.get_of_not_mem hn, h]
  · exact Memory.get_place_self b hn

/-- A write leaves every other address alone. -/
theorem Memory.get_put_ne {a c : Nat} (h : c ≠ a) (d e b : Byte) (m : Memory) :
    Memory.get e c (Memory.put d a b m) = Memory.get e c m := by
  unfold Memory.put
  split
  · exact Memory.get_filter_ne h m
  · rw [Memory.get_place_ne h, Memory.get_filter_ne h]

/-! ## The canonical form -/

theorem Memory.mem_place {a : Nat} {b : Byte} {m : Memory} {c : Host.Cell} :
    c ∈ Memory.place a b m ↔ c = (a, b) ∨ c ∈ m := by
  induction m with
  | nil => simp [Memory.place]
  | cons e m ih =>
    unfold Memory.place
    split
    · simp
    · simp only [List.mem_cons, ih]; tauto

theorem Memory.pairwise_place {a : Nat} {b : Byte} {m : Memory}
    (hm : m.Pairwise fun c d => c.1 < d.1) (hn : ∀ c ∈ m, c.1 ≠ a) :
    (Memory.place a b m).Pairwise fun c d => c.1 < d.1 := by
  induction m with
  | nil => simp [Memory.place]
  | cons e m ih =>
    obtain ⟨k, v⟩ := e
    have hk : k ≠ a := hn (k, v) (by simp)
    rw [List.pairwise_cons] at hm
    unfold Memory.place
    split
    · rename_i hlt
      refine List.pairwise_cons.mpr ⟨?_, List.pairwise_cons.mpr hm⟩
      intro c hc
      rcases List.mem_cons.mp hc with rfl | hc
      · exact hlt
      · exact Nat.lt_trans hlt (hm.1 c hc)
    · rename_i hge
      refine List.pairwise_cons.mpr ⟨?_, ih hm.2 fun c hc => hn c (by simp [hc])⟩
      intro c hc
      rcases Memory.mem_place.mp hc with rfl | hc
      · show k < a; omega
      · exact hm.1 c hc

/-- A write inside the address space keeps the canonical form. -/
theorem Memory.wf_put {cfg : Config} {m : Memory} (h : Memory.wf cfg m) {a : Nat} (ha : a < memSize)
    (b : Byte) : Memory.wf cfg (Memory.put (unlistedByte cfg a) a b m) := by
  obtain ⟨hp, hc⟩ := h
  have hp' := hp.filter (fun c => decide (c.1 ≠ a))
  have hn : ∀ c ∈ m.filter (fun c => decide (c.1 ≠ a)), c.1 ≠ a := by
    intro c hc; simpa using (List.mem_filter.mp hc).2
  unfold Memory.put
  split
  · exact ⟨hp', fun c hm => hc c (List.mem_filter.mp hm).1⟩
  · rename_i hb
    refine ⟨Memory.pairwise_place hp' hn, fun c hm => ?_⟩
    rcases Memory.mem_place.mp hm with rfl | hm
    · exact ⟨ha, hb⟩
    · exact hc c (List.mem_filter.mp hm).1

/-- A memory given by its bytes is in canonical form. -/
theorem Memory.wf_ofBytes (cfg : Config) (f : Nat → Byte) : Memory.wf cfg (Memory.ofBytes cfg f) := by
  constructor
  · unfold Memory.ofBytes
    rw [List.pairwise_filterMap]
    refine (List.pairwise_lt_range (n := memSize)).imp ?_
    intro a b hab c hc d hd
    split at hc
    · cases hc
    · split at hd
      · cases hd
      · cases hc; cases hd; exact hab
  · intro c hc
    unfold Memory.ofBytes at hc
    obtain ⟨a, ha, h⟩ := List.mem_filterMap.mp hc
    split at h
    · cases h
    · rename_i hne
      cases h
      exact ⟨List.mem_range.mp ha, hne⟩

theorem Memory.wf_nil (cfg : Config) : Memory.wf cfg [] :=
  ⟨List.Pairwise.nil, fun _ hc => absurd hc List.not_mem_nil⟩

theorem State.reset_mem_wf : Memory.wf State.reset.cfg State.reset.mem := Memory.wf_nil _

theorem State.setByte_wf {s : State} (h : Memory.wf s.cfg s.mem) {a : Nat} (ha : a < memSize) (b : Byte) :
    Memory.wf (s.setByte a b).cfg (s.setByte a b).mem :=
  Memory.wf_put h ha b

/-! ## Bytes of a state -/

theorem State.byteAt_congr {s t : State} (hc : t.cfg = s.cfg) (hm : t.mem = s.mem) (a : Nat) :
    t.byteAt a = s.byteAt a := by
  simp [State.byteAt, hc, hm]

@[simp] theorem State.byteAt_setByte (s : State) (a c : Nat) (b : Byte) :
    (s.setByte a b).byteAt c = if a = c then b else s.byteAt c := by
  unfold State.byteAt
  split
  · rename_i h; subst h; exact Memory.get_put_self _ _ _ _
  · rename_i h; exact Memory.get_put_ne (Ne.symm h) _ _ _ _

theorem State.memRead_ok {s : State} {a : Nat} (h : a < memSize) : s.memRead a = .ok (s.byteAt a) :=
  if_pos h

theorem State.memRead_error {s : State} {a : Nat} (h : ¬ a < memSize) :
    s.memRead a = .error (.addressOutOfRange a) :=
  if_neg h

/-- Everything a byte read in bulk can answer. -/
theorem State.readBytes_ok {s : State} {n a : Nat} (h : n = 0 ∨ a + n ≤ memSize) :
    s.readBytes a n = .ok ((List.range' a n).map s.byteAt) := by
  induction n generalizing a with
  | zero => rfl
  | succ n ih =>
    have ha : a < memSize := by omega
    simp only [State.readBytes, State.memRead_ok ha, ih (a := a + 1) (by omega), List.range'_succ, List.map_cons]

theorem State.readBytes_error {s : State} {n a : Nat} (h0 : n ≠ 0) (h : memSize < a + n) :
    s.readBytes a n = .error (.addressOutOfRange (firstOutOfRange a)) := by
  induction n generalizing a with
  | zero => omega
  | succ n ih =>
    by_cases ha : a < memSize
    · simp only [State.readBytes, State.memRead_ok ha, ih (a := a + 1) (by omega) (by omega)]
      have : firstOutOfRange (a + 1) = firstOutOfRange a := by simp only [firstOutOfRange]; omega
      rw [this]
    · simp only [State.readBytes, State.memRead_error ha]
      have : firstOutOfRange a = a := by simp only [firstOutOfRange]; omega
      rw [this]

/-- A byte written in bulk that stays inside the address space: `fill`. -/
theorem State.writeBytes_ok {s : State} {bs : List Byte} {a : Nat} (h : bs = [] ∨ a + bs.length ≤ memSize) :
    s.writeBytes a bs = .ok (s.fill a bs) := by
  induction bs generalizing a s with
  | nil => rfl
  | cons b bs ih =>
    have hl : a + (bs.length + 1) ≤ memSize := by simpa using h
    have ha : a < memSize := by omega
    simp only [State.writeBytes, State.memWrite, if_pos ha, State.fill]
    exact ih (by right; omega)

theorem State.writeBytes_error {s : State} {bs : List Byte} {a : Nat} (h0 : bs ≠ [])
    (h : memSize < a + bs.length) :
    s.writeBytes a bs = .error (.addressOutOfRange (firstOutOfRange a)) := by
  induction bs generalizing a s with
  | nil => exact absurd rfl h0
  | cons b bs ih =>
    have hl : memSize < a + (bs.length + 1) := by simpa using h
    by_cases ha : a < memSize
    · simp only [State.writeBytes, State.memWrite, if_pos ha]
      have : firstOutOfRange (a + 1) = firstOutOfRange a := by simp only [firstOutOfRange]; omega
      rw [ih (by rintro rfl; simp only [List.length_nil] at hl; omega) (by omega), this]
    · simp only [State.writeBytes, State.memWrite, if_neg ha]
      have : firstOutOfRange a = a := by simp only [firstOutOfRange]; omega
      rw [this]

/-! ## `fill` changes memory alone -/

theorem State.fill_mem_only (bs : List Byte) (s : State) (a : Nat) :
    s.fill a bs = { s with mem := (s.fill a bs).mem } := by
  induction bs generalizing s a with
  | nil => rfl
  | cons b bs ih => rw [State.fill, ih]; rfl

theorem State.fill_byteAt (bs : List Byte) (s : State) (a c : Nat) :
    (s.fill a bs).byteAt c = if h : a ≤ c ∧ c < a + bs.length then bs[c - a] else s.byteAt c := by
  induction bs generalizing s a with
  | nil =>
    have : ¬ (a ≤ c ∧ c < a + ([] : List Byte).length) := by simp
    rw [dif_neg this]; rfl
  | cons b bs ih =>
    rw [State.fill, ih]
    by_cases h1 : a + 1 ≤ c ∧ c < a + 1 + bs.length
    · have h2 : a ≤ c ∧ c < a + (b :: bs).length := by simp; omega
      rw [dif_pos h1, dif_pos h2]
      have : c - a = (c - (a + 1)) + 1 := by omega
      simp [this]
    · rw [dif_neg h1, State.byteAt_setByte]
      by_cases h3 : a = c
      · simp [h3]
      · have h2 : ¬ (a ≤ c ∧ c < a + (b :: bs).length) := by simp; omega
        rw [if_neg h3, dif_neg h2]

theorem State.fill_wf {bs : List Byte} {s : State} {a : Nat} (hs : Memory.wf s.cfg s.mem)
    (h : bs = [] ∨ a + bs.length ≤ memSize) : Memory.wf s.cfg (s.fill a bs).mem := by
  induction bs generalizing s a with
  | nil => exact hs
  | cons b bs ih =>
    have hl : a + (bs.length + 1) ≤ memSize := by simpa using h
    have ha : a < memSize := by omega
    exact ih (s := s.setByte a b) (Memory.wf_put hs ha b) (by right; omega)

/-- Fault entry leaves memory in canonical form. -/
theorem State.enterFault_wf (s : State) (r : FaultReport) : Memory.wf s.cfg (s.enterFault r).mem := by
  rw [State.enterFault_mem]; exact Memory.wf_ofBytes s.cfg _

end Sys2Proof.Machine
end

