-- ==== Sys2Proof/Laws/Exec.lean ====
section
/-! SUPPORT. What each meaning with more than one outcome answers, one lemma an outcome, and what exec can do to the
status. The other meanings are single updates and are used unfolded. -/

namespace Sys2Proof.Machine

/-! ## Fault entry -/

@[simp] theorem State.conclude_ok (s t : State) (i : Instr) : s.conclude i (.ok t) = .next t := rfl

@[simp] theorem State.conclude_error (s : State) (i : Instr) (f : Fault) :
    s.conclude i (.error f) = .next (s.enterFault (s.report i f)) := rfl

theorem State.enterFault_taken (s : State) (r : FaultReport) : FaultTaken r s (s.enterFault r) :=
  ⟨rfl, rfl, rfl, rfl, rfl⟩

theorem State.enterDrawFault_taken (s : State) (r : FaultReport) : FaultTaken r s (s.enterDrawFault r) :=
  ⟨rfl, rfl, rfl, rfl, rfl⟩

/-! ## The meanings that can fault -/

theorem execRet_ok {s : State} {rest : List Word} {a : Word} (h : s.stack = rest ++ [a]) :
    execRet s = .next ({ s with stack := rest }.setPc a) := by
  simp [execRet, State.pop, h]

theorem execRet_fault {s : State} (h : s.stack = []) :
    execRet s = .next (s.enterFault (s.report .ret .stackUnderflow)) := by
  simp [execRet, State.pop, h]

theorem execCall_ok {s : State} (nnn : Addr12) (h : s.stack.length ≠ s.cfg.stackCapacity) :
    execCall nnn s = .next ({ s with stack := s.stack ++ [s.pc] }.setPc (zext12 nnn)) := by
  simp [execCall, State.push, h]

theorem execCall_fault {s : State} (nnn : Addr12) (h : s.stack.length = s.cfg.stackCapacity) :
    execCall nnn s = .next (s.enterFault (s.report (.call nnn) (.stackOverflow s.stack.length))) := by
  simp [execCall, State.push, h]

theorem bcdDigits_length (b : Byte) : (bcdDigits b).length = 3 := rfl

theorem execStoreBcd_ok {s : State} (x : Reg) (h : s.i.toNat + 3 ≤ memSize) :
    execStoreBcd x s = .next (s.fill s.i.toNat (bcdDigits (s.getV x))) := by
  rw [execStoreBcd, State.ea, Nat.add_zero, State.writeBytes_ok (.inr h), State.conclude_ok]

theorem execStoreBcd_fault {s : State} (x : Reg) (h : memSize < s.i.toNat + 3) :
    execStoreBcd x s =
      .next (s.enterFault (s.report (.storeBcd x) (.addressOutOfRange (firstOutOfRange s.i.toNat)))) := by
  rw [execStoreBcd, State.ea, Nat.add_zero,
    State.writeBytes_error (bs := bcdDigits (s.getV x)) (List.cons_ne_nil _ _) (by rw [bcdDigits_length]; exact h), State.conclude_error]

theorem execStoreRegs_ok {s : State} {x : Reg} (h : s.i.toNat + (x.val + 1) ≤ memSize) :
    execStoreRegs x s = .next ((s.fill s.i.toNat (s.regsUpTo x)).advanceI x) := by
  rw [execStoreRegs, State.ea, Nat.add_zero, State.writeBytes_ok (.inr (by rw [s.regsUpTo_length]; exact h))]
  rfl

theorem execStoreRegs_fault {s : State} {x : Reg} (h : memSize < s.i.toNat + (x.val + 1)) :
    execStoreRegs x s =
      .next (s.enterFault (s.report (.storeRegs x) (.addressOutOfRange (firstOutOfRange s.i.toNat)))) := by
  have hl := s.regsUpTo_length x
  rw [execStoreRegs, State.ea, Nat.add_zero, State.writeBytes_error (by intro e; rw [e] at hl; simp at hl)
    (by rw [hl]; exact h), State.conclude_error]

theorem execLoadRegs_ok {s : State} {x : Reg} (h : s.i.toNat + (x.val + 1) ≤ memSize) :
    execLoadRegs x s =
      .next ((s.loadRegs ((List.range' s.i.toNat (x.val + 1)).map s.byteAt)).advanceI x) := by
  rw [execLoadRegs, State.ea, Nat.add_zero, State.readBytes_ok (.inr h)]
  rfl

theorem execLoadRegs_fault {s : State} {x : Reg} (h : memSize < s.i.toNat + (x.val + 1)) :
    execLoadRegs x s =
      .next (s.enterFault (s.report (.loadRegs x) (.addressOutOfRange (firstOutOfRange s.i.toNat)))) := by
  rw [execLoadRegs, State.ea, Nat.add_zero, State.readBytes_error (Nat.succ_ne_zero _) h, State.conclude_error]

theorem execDrw_ok {s : State} (x y : Reg) {n : Nibble} (h : n.toNat = 0 ∨ s.i.toNat + n.toNat ≤ memSize) :
    execDrw x y n s = .next (s.drawRows x y ((List.range' s.i.toNat n.toNat).map s.byteAt)) := by
  rw [execDrw, State.ea, Nat.add_zero, State.readBytes_ok h]

theorem execDrw_fault {s : State} (x y : Reg) {n : Nibble} (h0 : n.toNat ≠ 0) (h : memSize < s.i.toNat + n.toNat) :
    execDrw x y n s =
      .next (s.enterDrawFault (s.report (.drw x y n) (.addressOutOfRange (firstOutOfRange s.i.toNat)))) := by
  rw [execDrw, State.ea, Nat.add_zero, State.readBytes_error h0 h]

theorem execSkp_ok {s : State} {x : Reg} {k : Key} (h : (s.getV x).toNat = k.val) :
    execSkp x s = .next (s.skipIf (s.keyDown k)) := by
  have hk : (s.getV x).toNat < 16 := by have := k.isLt; omega
  have : (⟨(s.getV x).toNat, hk⟩ : Key) = k := Fin.ext h
  simp [execSkp, keyOfByte, hk, this]

theorem execSkp_fault {s : State} {x : Reg} (h : ¬ (s.getV x).toNat < 16) :
    execSkp x s = .next (s.enterFault (s.report (.skp x) (.keyIndexOutOfRange (s.getV x)))) := by
  simp [execSkp, keyOfByte, h]

theorem execSknp_ok {s : State} {x : Reg} {k : Key} (h : (s.getV x).toNat = k.val) :
    execSknp x s = .next (s.skipIf (!(s.keyDown k))) := by
  have hk : (s.getV x).toNat < 16 := by have := k.isLt; omega
  have : (⟨(s.getV x).toNat, hk⟩ : Key) = k := Fin.ext h
  simp [execSknp, keyOfByte, hk, this]

theorem execSknp_fault {s : State} {x : Reg} (h : ¬ (s.getV x).toNat < 16) :
    execSknp x s = .next (s.enterFault (s.report (.sknp x) (.keyIndexOutOfRange (s.getV x)))) := by
  simp [execSknp, keyOfByte, h]

theorem execWaitKey_none {s : State} (x : Reg) (h : s.keys = 0) :
    execWaitKey x s = .next (s.setPc (s.pc - 2)) := by
  rw [execWaitKey, keySelect_eq_none.mpr h]

theorem execWaitKey_some {s : State} (x : Reg) (h : s.keys ≠ 0) :
    ∃ k, s.keyDown k = true ∧ execWaitKey x s = .next (s.setV x (BitVec.ofNat 8 k.val)) := by
  unfold execWaitKey
  split
  · rename_i hk; exact absurd (keySelect_eq_none.mp hk) h
  · rename_i k hk; exact ⟨k, keySelect_pressed hk, rfl⟩

/-! ## Reading bulk data back -/

theorem getV_loadRegs_range (s : State) (x q : Reg) :
    (s.loadRegs ((List.range' s.i.toNat (x.val + 1)).map s.byteAt)).getV q =
      if q.val ≤ x.val then s.byteAt (s.i.toNat + q.val) else s.getV q := by
  rw [State.getV_loadRegs]
  by_cases h : q.val ≤ x.val
  · have : q.val < ((List.range' s.i.toNat (x.val + 1)).map s.byteAt).length := by simp; omega
    rw [dif_pos this, if_pos h]; simp
  · have : ¬ q.val < ((List.range' s.i.toNat (x.val + 1)).map s.byteAt).length := by simp; omega
    rw [dif_neg this, if_neg h]

/-! ## Draws -/

theorem State.drawRows_pixel (s : State) (x y : Reg) {rows : List Byte} (h : rows.length ≤ 32) (p : Place) :
    (s.drawRows x y rows).pixel p =
      if p ∈ drawTargets s.cfg.spriteWrap (s.getV x) (s.getV y) rows then !(s.pixel p) else s.pixel p := by
  have hn := nodup_drawTargets h s.cfg.spriteWrap (s.getV x) (s.getV y)
  show (toggleAll _ s.fb false).1.pixel p = _
  split
  · rename_i hm; exact toggleAll_pixel_mem hn hm _ _
  · rename_i hm; exact toggleAll_pixel_not_mem hm _ _

theorem State.drawRows_flag (s : State) (x y : Reg) {rows : List Byte} (h : rows.length ≤ 32) :
    (s.drawRows x y rows).getV vF =
      if (drawTargets s.cfg.spriteWrap (s.getV x) (s.getV y) rows).any s.pixel then 1 else 0 := by
  have hn := nodup_drawTargets h s.cfg.spriteWrap (s.getV x) (s.getV y)
  show ((s.setFb _).setFlag (toggleAll _ s.fb false).2).getV vF = _
  rw [State.getV_setFlag, if_pos rfl, toggleAll_hit hn, Bool.false_or]
  rfl

/-- The rows a draw reads place their set bits where `SpriteCovers` says. -/
theorem mem_drawTargets_iff_covers (s : State) (x y : Reg) (n : Nibble) (p : Place) :
    p ∈ drawTargets s.cfg.spriteWrap (s.getV x) (s.getV y) ((List.range' s.i.toNat n.toNat).map s.byteAt) ↔
      SpriteCovers s x y n p := by
  rw [mem_drawTargets]
  constructor
  · rintro ⟨r, c, h, hc, hb, hl⟩
    exact ⟨r, c, by simpa using h, hc, by simpa using hb, hl⟩
  · rintro ⟨r, c, hr, hc, hb, hl⟩
    exact ⟨r, c, by simpa using hr, hc, by simpa using hb, hl⟩

/-! ## exec -/

/-- Every instruction answers a next state. -/
theorem exec_next (i : Instr) (s : State) : ∃ t, exec i s = .next t := by
  have hc : ∀ (j : Instr) (r : Except Fault State), ∃ t, s.conclude j r = .next t := by
    intro j r; cases r <;> exact ⟨_, rfl⟩
  cases i <;> first | exact ⟨_, rfl⟩ | exact hc _ _ | skip
  case drw x y n => simp only [exec, execDrw]; split <;> exact ⟨_, rfl⟩
  case waitKey x => simp only [exec, execWaitKey]; split <;> exact ⟨_, rfl⟩

end Sys2Proof.Machine
end

