-- ==== Sys2Proof/Laws/Frames.lean ====
section
/-! SUPPORT. Frames (`Keeps`): they compose, they widen, and the frame of each named update. -/

namespace Sys2Proof.Machine

/-- A frame holds of a state and itself. -/
theorem Keeps.refl (w : Writes) (s : State) : Keeps w s s :=
  ⟨fun _ _ => rfl, fun _ => rfl, fun _ => rfl, fun _ => rfl, fun _ => rfl, fun _ => rfl, fun _ => rfl,
   fun _ _ => rfl, fun _ => ⟨rfl, rfl⟩, rfl, rfl, rfl, ⟨rfl, rfl⟩, ⟨rfl, rfl, rfl⟩⟩

/-- Two updates with the same frame have it together. -/
theorem Keeps.trans {w : Writes} {s t u : State} (h : Keeps w s t) (k : Keeps w t u) : Keeps w s u where
  regs r hr := (k.regs r hr).trans (h.regs r hr)
  pc e := (k.pc e).trans (h.pc e)
  index e := (k.index e).trans (h.index e)
  stack e := (k.stack e).trans (h.stack e)
  dt e := (k.dt e).trans (h.dt e)
  st e := (k.st e).trans (h.st e)
  fb e := (k.fb e).trans (h.fb e)
  mem a e := (k.mem a e).trans (h.mem a e)
  rng e := ⟨(k.rng e).1.trans (h.rng e).1, (k.rng e).2.trans (h.rng e).2⟩
  keys := k.keys.trans h.keys
  status := k.status.trans h.status
  cfg := k.cfg.trans h.cfg
  outputs := ⟨k.outputs.1.trans h.outputs.1, k.outputs.2.trans h.outputs.2⟩
  frame := ⟨k.frame.1.trans h.frame.1, k.frame.2.1.trans h.frame.2.1, k.frame.2.2.trans h.frame.2.2⟩

/-- A write of one register keeps every frame that names the register. -/
theorem keeps_setV {w : Writes} {r : Reg} (h : r ∈ w.regs) (s : State) (b : Byte) : Keeps w s (s.setV r b) :=
  { Keeps.refl w s with
    regs := fun q hq => by
      rw [State.getV_setV, if_neg]
      rintro rfl
      exact hq h }

theorem keeps_setFlag {w : Writes} (h : vF ∈ w.regs) (s : State) (b : Bool) : Keeps w s (s.setFlag b) :=
  keeps_setV h s _

theorem keeps_setResult {w : Writes} {x : Reg} (hx : x ∈ w.regs) (hf : vF ∈ w.regs) (s : State) (b : Byte)
    (f : Bool) : Keeps w s (s.setResult x b f) :=
  (keeps_setV hx s b).trans (keeps_setFlag hf _ f)

theorem keeps_setPc {w : Writes} (h : w.pc = true) (s : State) (a : Word) : Keeps w s (s.setPc a) :=
  { Keeps.refl w s with pc := fun e => by rw [h] at e; cases e }

theorem keeps_skipIf {w : Writes} (h : w.pc = true) (s : State) (c : Bool) : Keeps w s (s.skipIf c) := by
  unfold State.skipIf; split
  · exact keeps_setPc h s _
  · exact Keeps.refl w s

theorem keeps_setI {w : Writes} (h : w.index = true) (s : State) (a : Word) : Keeps w s (s.setI a) :=
  { Keeps.refl w s with index := fun e => by rw [h] at e; cases e }

theorem keeps_advanceI {w : Writes} (h : w.index = true) (s : State) (x : Reg) : Keeps w s (s.advanceI x) := by
  unfold State.advanceI; split
  · exact keeps_setI h s _
  · exact Keeps.refl w s

theorem keeps_setDt {w : Writes} (h : w.dt = true) (s : State) (b : Byte) : Keeps w s (s.setDt b) :=
  { Keeps.refl w s with dt := fun e => by rw [h] at e; cases e }

theorem keeps_setSt {w : Writes} (h : w.st = true) (s : State) (b : Byte) : Keeps w s (s.setSt b) :=
  { Keeps.refl w s with st := fun e => by rw [h] at e; cases e }

theorem keeps_setFb {w : Writes} (h : w.fb = true) (s : State) (f : Framebuffer) : Keeps w s (s.setFb f) :=
  { Keeps.refl w s with fb := fun e => by rw [h] at e; cases e }

theorem keeps_stack {w : Writes} (h : w.stack = true) (s : State) (l : List Word) :
    Keeps w s { s with stack := l } :=
  { Keeps.refl w s with stack := fun e => by rw [h] at e; cases e }

theorem keeps_afterDraw {w : Writes} (h : w.rng = true) (s : State) : Keeps w s s.afterDraw :=
  { Keeps.refl w s with rng := fun e => by rw [h] at e; cases e }

theorem keeps_tick {w : Writes} (h : w.dt = true) (k : w.st = true) (s : State) : Keeps w s s.tick :=
  { Keeps.refl w s with
    dt := fun e => by rw [h] at e; cases e
    st := fun e => by rw [k] at e; cases e }

theorem keeps_setByte {w : Writes} {a : Nat} (h : w.mem a = true) (s : State) (b : Byte) :
    Keeps w s (s.setByte a b) :=
  { Keeps.refl w s with
    mem := fun c e => by
      rw [State.byteAt_setByte, if_neg]
      rintro rfl
      rw [h] at e; cases e }

/-- A bulk store has every frame that names its bytes. -/
theorem keeps_fill {w : Writes} {bs : List Byte} {a : Nat} (h : ∀ k, k < bs.length → w.mem (a + k) = true)
    (s : State) : Keeps w s (s.fill a bs) := by
  induction bs generalizing a s with
  | nil => exact Keeps.refl w s
  | cons b bs ih =>
    refine (keeps_setByte (h 0 (by simp)) s b).trans (ih (fun k hk => ?_) _)
    rw [Nat.add_assoc, Nat.add_comm 1 k]
    exact h (k + 1) (by simpa using hk)

/-- A bulk load has every frame that names the registers it reaches. -/
theorem keeps_loadRegs {w : Writes} {bs : List Byte} (h : ∀ q : Reg, q.val < bs.length → q ∈ w.regs) (s : State) :
    Keeps w s (s.loadRegs bs) :=
  { Keeps.refl w s with
    regs := fun q hq => by rw [State.getV_loadRegs, dif_neg (fun e => hq (h q e))] }

theorem keeps_drawRows {w : Writes} (hf : vF ∈ w.regs) (hb : w.fb = true) (s : State) (x y : Reg)
    (rows : List Byte) : Keeps w s (s.drawRows x y rows) :=
  (keeps_setFb hb s _).trans (keeps_setFlag hf _ _)

/-! ## The load -/

theorem State.fill_replicate_byteAt (s : State) (a n c : Nat) (b : Byte) :
    (s.fill a (List.replicate n b)).byteAt c = if a ≤ c ∧ c < a + n then b else s.byteAt c := by
  rw [State.fill_byteAt]
  by_cases h : a ≤ c ∧ c < a + n
  · have h' : a ≤ c ∧ c < a + (List.replicate n b).length := by simpa using h
    rw [dif_pos h', if_pos h, List.getElem_replicate]
  · have h' : ¬ (a ≤ c ∧ c < a + (List.replicate n b).length) := by simpa using h
    rw [dif_neg h', if_neg h]

/-- The loaded machine. -/
def State.loaded (s : State) (image : List Byte) : State :=
  (s.fill progBase (List.replicate maxImage 0)).fill progBase image

theorem State.load_ok (s : State) {image : List Byte} (h : image.length ≤ maxImage) :
    s.load image = .ok (s.loaded image) := by
  rw [State.load, if_pos (by simpa [imageFits] using h), State.loaded]

theorem State.loaded_byteAt (s : State) (image : List Byte) (a : Nat) :
    (s.loaded image).byteAt a =
      if h : 0x200 ≤ a ∧ a < 0x200 + image.length then image[a - 0x200]
      else if 0x200 ≤ a ∧ a < 0x200 + 3584 then 0 else s.byteAt a := by
  rw [State.loaded, State.fill_byteAt]
  split
  · rfl
  · exact State.fill_replicate_byteAt s progBase maxImage a 0

theorem keeps_loaded (s : State) {image : List Byte} (h : image.length ≤ maxImage) {w : Writes}
    (hw : ∀ a, 0x200 ≤ a → a ≤ 0xFFF → w.mem a = true) : Keeps w s (s.loaded image) := by
  refine (keeps_fill (fun k hk => ?_) s).trans (keeps_fill (fun k hk => ?_) _)
  · rw [List.length_replicate] at hk
    exact hw _ (Nat.le_add_right _ _) (by change 0x200 + k ≤ 0xFFF; change k < 3584 at hk; omega)
  · exact hw _ (Nat.le_add_right _ _) (by
      change 0x200 + k ≤ 0xFFF; change image.length ≤ 3584 at h; omega)

theorem State.loaded_wf {s : State} (hs : Memory.wf s.cfg s.mem) {image : List Byte} (h : image.length ≤ maxImage) :
    Memory.wf s.cfg (s.loaded image).mem := by
  have h1 : Memory.wf s.cfg (s.fill progBase (List.replicate maxImage 0)).mem :=
    State.fill_wf hs (.inr (by rw [List.length_replicate]; decide))
  have hc : (s.fill progBase (List.replicate maxImage 0)).cfg = s.cfg := by rw [State.fill_mem_only]
  rw [← hc] at h1
  have h2 := State.fill_wf (bs := image) (a := progBase) h1 (.inr (by
    change 0x200 + image.length ≤ 4096; change image.length ≤ 3584 at h; omega))
  rw [hc] at h2
  exact h2

/-- A load changes memory alone. -/
theorem State.loaded_mem_only (s : State) (image : List Byte) : ∃ m, s.loaded image = { s with mem := m } := by
  unfold State.loaded
  generalize List.replicate maxImage (0 : Byte) = zeros
  exact ⟨_, by rw [State.fill_mem_only image, State.fill_mem_only zeros]⟩

end Sys2Proof.Machine
end

