-- ==== Sys2Proof/Laws/Inversion.lean ====
section
/-! SUPPORT. Said once: everything an instruction, an instruction step and a run of steps can do. Whole-machine rules
follow from these by a case split over the instructions, without unfolding a meaning again. -/

namespace Sys2Proof.Machine

/-- What each instruction may write when it takes no fault: the frame its rule gives it. -/
def writes (s : State) : Instr → Writes
  | .cls => { fb := true }
  | .ret => { pc := true, stack := true }
  | .jp _ => { pc := true }
  | .call _ => { pc := true, stack := true }
  | .seImm _ _ => { pc := true }
  | .sneImm _ _ => { pc := true }
  | .seReg _ _ => { pc := true }
  | .ldImm x _ => { regs := [x] }
  | .addImm x _ => { regs := [x] }
  | .ldReg x _ => { regs := [x] }
  | .orReg x _ => { regs := [x] }
  | .andReg x _ => { regs := [x] }
  | .xorReg x _ => { regs := [x] }
  | .addReg x _ => { regs := [x, vF] }
  | .subReg x _ => { regs := [x, vF] }
  | .shrReg x _ => { regs := [x, vF] }
  | .subnReg x _ => { regs := [x, vF] }
  | .shlReg x _ => { regs := [x, vF] }
  | .sneReg _ _ => { pc := true }
  | .ldI _ => { index := true }
  | .jpOff _ => { pc := true }
  | .rnd x _ => { regs := [x], rng := true }
  | .drw _ _ _ => { regs := [vF], fb := true }
  | .skp _ => { pc := true }
  | .sknp _ => { pc := true }
  | .readDt x => { regs := [x] }
  | .waitKey x => { regs := [x], pc := true }
  | .setDt _ => { dt := true }
  | .setSt _ => { st := true }
  | .addI _ => { regs := [vF], index := true }
  | .ldFont _ => { index := true }
  | .storeBcd _ => { mem := fun a => decide (s.i.toNat ≤ a ∧ a ≤ s.i.toNat + 2) }
  | .storeRegs x => { index := true, mem := fun a => decide (s.i.toNat ≤ a ∧ a ≤ s.i.toNat + x.val) }
  | .loadRegs x => { regs := (List.finRange 16).filter fun k => decide (k.val ≤ x.val), index := true }

/-- An instruction keeps its frame or takes a fault. -/
theorem exec_cases {i : Instr} {s t : State} (h : exec i s = .next t) :
    Keeps (writes s i) s t ∨ ∃ r, t = s.enterFault r ∨ t = s.enterDrawFault r := by
  have up : ∀ {u : State}, exec i s = .next u → Keeps (writes s i) s u →
      Keeps (writes s i) s t ∨ ∃ r, t = s.enterFault r ∨ t = s.enterDrawFault r := by
    intro u hu k
    rw [hu] at h; cases h; exact .inl k
  have down : ∀ {r : FaultReport}, exec i s = .next (s.enterFault r) →
      Keeps (writes s i) s t ∨ ∃ r, t = s.enterFault r ∨ t = s.enterDrawFault r := by
    intro r hr
    rw [hr] at h; cases h; exact .inr ⟨r, .inl rfl⟩
  cases i
  case cls => exact up rfl (keeps_setFb rfl s _)
  case jp nnn => exact up rfl (keeps_setPc rfl s _)
  case seImm x nn => exact up rfl (keeps_skipIf rfl s _)
  case sneImm x nn => exact up rfl (keeps_skipIf rfl s _)
  case seReg x y => exact up rfl (keeps_skipIf rfl s _)
  case sneReg x y => exact up rfl (keeps_skipIf rfl s _)
  case ldImm x nn => exact up rfl (keeps_setV (by simp [writes]) s _)
  case addImm x nn => exact up rfl (keeps_setV (by simp [writes]) s _)
  case ldReg x y => exact up rfl (keeps_setV (by simp [writes]) s _)
  case orReg x y => exact up rfl (keeps_setV (by simp [writes]) s _)
  case andReg x y => exact up rfl (keeps_setV (by simp [writes]) s _)
  case xorReg x y => exact up rfl (keeps_setV (by simp [writes]) s _)
  case readDt x => exact up rfl (keeps_setV (by simp [writes]) s _)
  case addReg x y => exact up rfl (keeps_setResult (by simp [writes]) (by simp [writes]) s _ _)
  case subReg x y => exact up rfl (keeps_setResult (by simp [writes]) (by simp [writes]) s _ _)
  case shrReg x y => exact up rfl (keeps_setResult (by simp [writes]) (by simp [writes]) s _ _)
  case subnReg x y => exact up rfl (keeps_setResult (by simp [writes]) (by simp [writes]) s _ _)
  case shlReg x y => exact up rfl (keeps_setResult (by simp [writes]) (by simp [writes]) s _ _)
  case ldI nnn => exact up rfl (keeps_setI rfl s _)
  case ldFont x => exact up rfl (keeps_setI rfl s _)
  case jpOff nnn => exact up rfl (keeps_setPc rfl s _)
  case setDt x => exact up rfl (keeps_setDt rfl s _)
  case setSt x => exact up rfl (keeps_setSt rfl s _)
  case rnd x nn => exact up rfl ((keeps_afterDraw rfl s).trans (keeps_setV (by simp [writes]) _ _))
  case addI x => exact up rfl ((keeps_setI rfl s _).trans (keeps_setFlag (by simp [writes]) _ _))
  case ret =>
    rcases List.eq_nil_or_concat s.stack with h0 | ⟨rest, a, h0⟩
    · exact down (execRet_fault h0)
    · exact up (execRet_ok (by simpa using h0)) ((keeps_stack rfl s _).trans (keeps_setPc rfl _ _))
  case call nnn =>
    by_cases h0 : s.stack.length = s.cfg.stackCapacity
    · exact down (execCall_fault nnn h0)
    · exact up (execCall_ok nnn h0) ((keeps_stack rfl s _).trans (keeps_setPc rfl _ _))
  case skp x =>
    by_cases h0 : (s.getV x).toNat < 16
    · exact up (execSkp_ok (k := ⟨_, h0⟩) rfl) (keeps_skipIf rfl s _)
    · exact down (execSkp_fault h0)
  case sknp x =>
    by_cases h0 : (s.getV x).toNat < 16
    · exact up (execSknp_ok (k := ⟨_, h0⟩) rfl) (keeps_skipIf rfl s _)
    · exact down (execSknp_fault h0)
  case waitKey x =>
    by_cases h0 : s.keys = 0
    · exact up (execWaitKey_none x h0) (keeps_setPc rfl s _)
    · obtain ⟨k, _, he⟩ := execWaitKey_some x h0
      exact up he (keeps_setV (by simp [writes]) s _)
  case drw x y n =>
    by_cases h0 : n.toNat ≠ 0 ∧ memSize < s.i.toNat + n.toNat
    · have he := execDrw_fault x y h0.1 h0.2
      rw [show exec (.drw x y n) s = _ from he] at h
      cases h; exact .inr ⟨_, .inr rfl⟩
    · exact up (execDrw_ok x y (by omega)) (keeps_drawRows (by simp [writes]) rfl s x y _)
  case storeBcd x =>
    by_cases h0 : s.i.toNat + 3 ≤ memSize
    · refine up (execStoreBcd_ok x h0) (keeps_fill (fun k hk => ?_) s)
      rw [bcdDigits_length] at hk
      simp [writes]; omega
    · exact down (execStoreBcd_fault x (by omega))
  case storeRegs x =>
    by_cases h0 : s.i.toNat + (x.val + 1) ≤ memSize
    · refine up (execStoreRegs_ok h0) ((keeps_fill (fun k hk => ?_) s).trans (keeps_advanceI rfl _ x))
      rw [State.regsUpTo_length] at hk
      simp [writes]; omega
    · exact down (execStoreRegs_fault (by omega))
  case loadRegs x =>
    by_cases h0 : s.i.toNat + (x.val + 1) ≤ memSize
    · refine up (execLoadRegs_ok h0) ((keeps_loadRegs (fun q hq => ?_) s).trans (keeps_advanceI rfl _ x))
      simp [writes] at hq ⊢; omega
    · exact down (execLoadRegs_fault (by omega))

/-- An instruction that leaves the machine running took no fault, so it kept its frame. -/
theorem exec_keeps {i : Instr} {s t : State} (h : exec i s = .next t) (hr : t.status = .running) :
    Keeps (writes s i) s t := by
  rcases exec_cases h with k | ⟨r, rfl | rfl⟩
  · exact k
  · cases hr
  · cases hr

/-- Everything an instruction step can do: a fetch fault, a decode error, or the decoded instruction. -/
theorem runInstruction_cases {s t : State} (h : runInstruction s = .next t) :
    (∃ r, t = s.enterFault r) ∨
    ∃ w i, s.fetch16 s.pc = .ok w ∧ decode w = .ok i ∧ exec i (s.setPc (s.pc + 2)) = .next t := by
  unfold runInstruction at h
  split at h
  · cases h; exact .inl ⟨_, rfl⟩
  · rename_i w hw
    split at h
    · cases h; exact .inl ⟨_, rfl⟩
    · rename_i i hi; exact .inr ⟨w, i, hw, hi, h⟩

/-- An instruction step answers a next state. -/
theorem runInstruction_next (s : State) : ∃ t, runInstruction s = .next t := by
  unfold runInstruction
  split
  · exact ⟨_, rfl⟩
  · split
    · exact ⟨_, rfl⟩
    · exact exec_next _ _

/-- Everything a step can do. -/
theorem step_cases {s t : State} (h : step s = .next t) :
    (s.status = .running ∧ s.phase = .top ∧ t = s.afterInput.beginFrame s.frameInput) ∨
    (s.status = .running ∧ s.phase = .batch 0 ∧ t = s.publish) ∨
    (∃ left, s.status = .running ∧ s.phase = .batch (left + 1) ∧ runInstruction (s.setPhase (.batch left)) = .next t) ∨
    (s.status ≠ .running ∧ t = s) := by
  unfold step frameStep at h
  split at h
  · rename_i hs
    split at h
    · rename_i hp; cases h; exact .inl ⟨hs, hp, rfl⟩
    · rename_i hp; cases h; exact .inr (.inl ⟨hs, hp, rfl⟩)
    · rename_i left hp; exact .inr (.inr (.inl ⟨left, hs, hp, h⟩))
  · rename_i hs; cases h; exact .inr (.inr (.inr ⟨by rw [hs]; exact Status.noConfusion, rfl⟩))
  · rename_i r hs; cases h; exact .inr (.inr (.inr ⟨by rw [hs]; exact Status.noConfusion, rfl⟩))

/-- One more step of a run, on any machine. -/
theorem run_succ_of_next {M : Host.Core} {n : Nat} {s t : M.State} (h : M.step s = .next t) :
    M.run (n + 1) s = M.run n t := by
  simp only [Host.Core.run, h]

/-- One more step of a run. -/
theorem run_succ {n : Nat} {s t : State} (h : step s = .next t) :
    Host.Core.run core (n + 1) s = Host.Core.run core n t :=
  run_succ_of_next (M := core) h

/-- A step in a batch is an instruction. -/
theorem step_batch {s : State} {left : Nat} (hs : s.status = .running) (hp : s.phase = .batch (left + 1)) :
    step s = runInstruction (s.setPhase (.batch left)) := by
  unfold step frameStep; rw [hs, hp]

/-- A stopped machine's step changes nothing. -/
theorem step_stopped {s : State} (h : s.status ≠ .running) : step s = .next s := by
  unfold step frameStep
  split
  · contradiction
  · rfl
  · rfl

/-- A stopped machine's run changes nothing. -/
theorem run_stopped {s : State} (n : Nat) (h : s.status ≠ .running) : Host.Core.run core n s = .next s := by
  induction n with
  | zero => rfl
  | succ n ih => rw [run_succ (step_stopped h)]; exact ih

end Sys2Proof.Machine
end

