-- ==== Sys2Proof/Laws/PerInstr.lean ====
section
/-! SUPPORT. Statements made one instruction at a time: the word of an instruction is accepted by the
instruction's own row of R63's table (mask and match as the spec prints them). -/

namespace Sys2Proof.Laws.TableRow

/-- The encoded instruction is a word of its own row of the opcode table (R63). -/
def Statement (i : Instr) : Prop := ∃ r, opcodeRows[i.rowIndex]? = some r ∧ r.accepts (encode i) = true

theorem of_FA (op : Nibble) (nnn : Addr12) :
    (⟨0xF000, formatFA op 0⟩ : OpcodeRow).accepts (formatFA op nnn) = true := by
  simp only [OpcodeRow.accepts, and_F000, (fields_formatFA op nnn).1, beq_self_eq_true]

theorem of_FI (op : Nibble) (x : Reg) (nn : Byte) :
    (⟨0xF000, formatFA op 0⟩ : OpcodeRow).accepts (formatFI op x nn) = true := by
  simp only [OpcodeRow.accepts, and_F000, (fields_formatFI op x nn).1, beq_self_eq_true]

theorem of_FX (op : Nibble) (x : Reg) (nn : Byte) :
    (⟨0xF0FF, formatFI op 0 nn⟩ : OpcodeRow).accepts (formatFI op x nn) = true := by
  obtain ⟨h1, _, h3⟩ := fields_formatFI op x nn
  simp only [OpcodeRow.accepts, and_F0FF, h1, h3, beq_self_eq_true]

theorem of_FR (op : Nibble) (x y : Reg) (s : Nibble) :
    (⟨0xF00F, formatFR op 0 0 s⟩ : OpcodeRow).accepts (formatFR op x y s) = true := by
  obtain ⟨h1, _, _, h4⟩ := fields_formatFR op x y s
  simp only [OpcodeRow.accepts, and_F00F, h1, h4, beq_self_eq_true]

theorem of_FD (op : Nibble) (x y : Reg) (n : Nibble) :
    (⟨0xF000, formatFA op 0⟩ : OpcodeRow).accepts (formatFR op x y n) = true := by
  simp only [OpcodeRow.accepts, and_F000, (fields_formatFR op x y n).1, beq_self_eq_true]

theorem cls : Statement .cls := ⟨_, rfl, by decide⟩
theorem ret : Statement .ret := ⟨_, rfl, by decide⟩
theorem jp (nnn : Addr12) : Statement (.jp nnn) := ⟨_, rfl, of_FA 0x1 nnn⟩
theorem call (nnn : Addr12) : Statement (.call nnn) := ⟨_, rfl, of_FA 0x2 nnn⟩
theorem ldI (nnn : Addr12) : Statement (.ldI nnn) := ⟨_, rfl, of_FA 0xA nnn⟩
theorem jpOff (nnn : Addr12) : Statement (.jpOff nnn) := ⟨_, rfl, of_FA 0xB nnn⟩
theorem seImm (x : Reg) (nn : Byte) : Statement (.seImm x nn) := ⟨_, rfl, of_FI 0x3 x nn⟩
theorem sneImm (x : Reg) (nn : Byte) : Statement (.sneImm x nn) := ⟨_, rfl, of_FI 0x4 x nn⟩
theorem ldImm (x : Reg) (nn : Byte) : Statement (.ldImm x nn) := ⟨_, rfl, of_FI 0x6 x nn⟩
theorem addImm (x : Reg) (nn : Byte) : Statement (.addImm x nn) := ⟨_, rfl, of_FI 0x7 x nn⟩
theorem rnd (x : Reg) (nn : Byte) : Statement (.rnd x nn) := ⟨_, rfl, of_FI 0xC x nn⟩
theorem seReg (x y : Reg) : Statement (.seReg x y) := ⟨_, rfl, of_FR 0x5 x y 0x0⟩
theorem ldReg (x y : Reg) : Statement (.ldReg x y) := ⟨_, rfl, of_FR 0x8 x y 0x0⟩
theorem orReg (x y : Reg) : Statement (.orReg x y) := ⟨_, rfl, of_FR 0x8 x y 0x1⟩
theorem andReg (x y : Reg) : Statement (.andReg x y) := ⟨_, rfl, of_FR 0x8 x y 0x2⟩
theorem xorReg (x y : Reg) : Statement (.xorReg x y) := ⟨_, rfl, of_FR 0x8 x y 0x3⟩
theorem addReg (x y : Reg) : Statement (.addReg x y) := ⟨_, rfl, of_FR 0x8 x y 0x4⟩
theorem subReg (x y : Reg) : Statement (.subReg x y) := ⟨_, rfl, of_FR 0x8 x y 0x5⟩
theorem shrReg (x y : Reg) : Statement (.shrReg x y) := ⟨_, rfl, of_FR 0x8 x y 0x6⟩
theorem subnReg (x y : Reg) : Statement (.subnReg x y) := ⟨_, rfl, of_FR 0x8 x y 0x7⟩
theorem shlReg (x y : Reg) : Statement (.shlReg x y) := ⟨_, rfl, of_FR 0x8 x y 0xE⟩
theorem sneReg (x y : Reg) : Statement (.sneReg x y) := ⟨_, rfl, of_FR 0x9 x y 0x0⟩
theorem drw (x y : Reg) (n : Nibble) : Statement (.drw x y n) := ⟨_, rfl, of_FD 0xD x y n⟩
theorem skp (x : Reg) : Statement (.skp x) := ⟨_, rfl, of_FX 0xE x 0x9E⟩
theorem sknp (x : Reg) : Statement (.sknp x) := ⟨_, rfl, of_FX 0xE x 0xA1⟩
theorem readDt (x : Reg) : Statement (.readDt x) := ⟨_, rfl, of_FX 0xF x 0x07⟩
theorem waitKey (x : Reg) : Statement (.waitKey x) := ⟨_, rfl, of_FX 0xF x 0x0A⟩
theorem setDt (x : Reg) : Statement (.setDt x) := ⟨_, rfl, of_FX 0xF x 0x15⟩
theorem setSt (x : Reg) : Statement (.setSt x) := ⟨_, rfl, of_FX 0xF x 0x18⟩
theorem addI (x : Reg) : Statement (.addI x) := ⟨_, rfl, of_FX 0xF x 0x1E⟩
theorem ldFont (x : Reg) : Statement (.ldFont x) := ⟨_, rfl, of_FX 0xF x 0x29⟩
theorem storeBcd (x : Reg) : Statement (.storeBcd x) := ⟨_, rfl, of_FX 0xF x 0x33⟩
theorem storeRegs (x : Reg) : Statement (.storeRegs x) := ⟨_, rfl, of_FX 0xF x 0x55⟩
theorem loadRegs (x : Reg) : Statement (.loadRegs x) := ⟨_, rfl, of_FX 0xF x 0x65⟩

end Sys2Proof.Laws.TableRow
end

