-- ==== Sys2Proof/Tests/Slice0.lean ====
section
/-! SUPPORT. The model's own tests: configurations the checks refuse, one word of every instruction written out from
the encodings of R63, single steps with the results of spec/95_test_vectors.md, and for every obligation with
hypotheses a state and operands that meet them. -/

namespace Sys2Proof.Tests

open Sys2Proof Sys2Proof.Machine

/-! ## Small states -/

/-- The default configuration with a batch of four. -/
def cfg : Config := { Config.default with instrPerFrame := 4 }

/-- A constructed machine inside a batch, PC at 0x200. -/
def start : State := { State.construct cfg with phase := .batch 1 }

/-- The machine as a rule finds it: PC already past the instruction at 0x200. -/
def ready : State := start.setPc 0x202

/-- Registers given as pairs. -/
def regs (l : List (Reg × Byte)) (s : State) : State := l.foldl (fun s p => s.setV p.1 p.2) s

/-- A change of configuration. -/
def config (f : Config → Config) (s : State) : State := { s with cfg := f s.cfg }

/-- A set pixel. -/
def lit (p : Place) (s : State) : State := s.setFb (s.fb.toggle p)

/-- The state after the very next step ran a word, and the state itself where it has no next state. -/
def ran (w : Nat) (s : State) : State :=
  match step (s.withFetchWord 16 w) with
  | .next t => t
  | .fault _ => s
  | .refused _ => s

/-- The state after a meaning ran, and the state itself where it has no next state. -/
def did (i : Instr) (s : State) : State :=
  match exec i s with
  | .next t => t
  | .fault _ => s
  | .refused _ => s

/-- The state after one step. -/
def stepped (s : State) : State :=
  match step s with
  | .next t => t
  | .fault _ => s
  | .refused _ => s

/-! ## The well-formedness checks refuse ill-formed data -/

theorem test_default_config_is_legal : cfg.wellFormed = true := by decide

theorem test_font_too_high_is_refused : { cfg with fontBase := 0x1B1 }.wellFormed = false := by decide

theorem test_empty_stack_capacity_is_refused : { cfg with stackCapacity := 0 }.wellFormed = false := by decide

theorem test_empty_batch_is_refused : { cfg with instrPerFrame := 0 }.wellFormed = false := by decide

theorem test_choice_of_an_unpressed_key_is_refused :
    { cfg with keySelect := [(0x0003, 5)] }.wellFormed = false := by decide

theorem test_oversized_image_is_refused : imageFits (List.replicate 3585 0) = false := by
  unfold imageFits; rw [List.length_replicate]; decide

/-! ## Decoding: words written out from R63 -/

theorem test_decode_cls : decode 0b0000_0000_1110_0000 = .ok .cls := rfl
theorem test_decode_ret : decode 0b0000_0000_1110_1110 = .ok .ret := rfl
theorem test_decode_jp : decode 0b0001_0010_0011_0100 = .ok (.jp 0x234) := rfl
theorem test_decode_call : decode 0b0010_0010_0001_0000 = .ok (.call 0x210) := rfl
theorem test_decode_seImm : decode 0b0011_1010_0100_0010 = .ok (.seImm 0xA 0x42) := rfl
theorem test_decode_sneImm : decode 0b0100_1010_0100_0010 = .ok (.sneImm 0xA 0x42) := rfl
theorem test_decode_seReg : decode 0b0101_0001_0010_0000 = .ok (.seReg 1 2) := rfl
theorem test_decode_ldImm : decode 0b0110_1010_0010_1111 = .ok (.ldImm 0xA 0x2F) := rfl
theorem test_decode_addImm : decode 0b0111_0010_0000_0011 = .ok (.addImm 2 3) := rfl
theorem test_decode_ldReg : decode 0b1000_0011_1111_0000 = .ok (.ldReg 3 0xF) := rfl
theorem test_decode_orReg : decode 0b1000_0011_0001_0001 = .ok (.orReg 3 1) := rfl
theorem test_decode_andReg : decode 0b1000_0011_0001_0010 = .ok (.andReg 3 1) := rfl
theorem test_decode_xorReg : decode 0b1000_0011_0001_0011 = .ok (.xorReg 3 1) := rfl
theorem test_decode_addReg : decode 0b1000_0011_0001_0100 = .ok (.addReg 3 1) := rfl
theorem test_decode_subReg : decode 0b1000_0011_0001_0101 = .ok (.subReg 3 1) := rfl
theorem test_decode_shrReg : decode 0b1000_0100_0001_0110 = .ok (.shrReg 4 1) := rfl
theorem test_decode_subnReg : decode 0b1000_0011_0001_0111 = .ok (.subnReg 3 1) := rfl
theorem test_decode_shlReg : decode 0b1000_0011_0001_1110 = .ok (.shlReg 3 1) := rfl
theorem test_decode_sneReg : decode 0b1001_0001_0010_0000 = .ok (.sneReg 1 2) := rfl
theorem test_decode_ldI : decode 0b1010_0011_0000_0001 = .ok (.ldI 0x301) := rfl
theorem test_decode_jpOff : decode 0b1011_0011_0000_0001 = .ok (.jpOff 0x301) := rfl
theorem test_decode_rnd : decode 0b1100_0011_0000_1111 = .ok (.rnd 3 0x0F) := rfl
theorem test_decode_drw : decode 0b1101_0000_0001_0101 = .ok (.drw 0 1 5) := rfl
theorem test_decode_skp : decode 0b1110_0001_1001_1110 = .ok (.skp 1) := rfl
theorem test_decode_sknp : decode 0b1110_0001_1010_0001 = .ok (.sknp 1) := rfl
theorem test_decode_readDt : decode 0b1111_0101_0000_0111 = .ok (.readDt 5) := rfl
theorem test_decode_waitKey : decode 0b1111_0011_0000_1010 = .ok (.waitKey 3) := rfl
theorem test_decode_setDt : decode 0b1111_0010_0001_0101 = .ok (.setDt 2) := rfl
theorem test_decode_setSt : decode 0b1111_0010_0001_1000 = .ok (.setSt 2) := rfl
theorem test_decode_addI : decode 0b1111_0010_0001_1110 = .ok (.addI 2) := rfl
theorem test_decode_ldFont : decode 0b1111_0001_0010_1001 = .ok (.ldFont 1) := rfl
theorem test_decode_storeBcd : decode 0b1111_0001_0011_0011 = .ok (.storeBcd 1) := rfl
theorem test_decode_storeRegs : decode 0b1111_0010_0101_0101 = .ok (.storeRegs 2) := rfl
theorem test_decode_loadRegs : decode 0b1111_0010_0110_0101 = .ok (.loadRegs 2) := rfl

/-- The illegal words of vectors C14, C17, A26, A27, K9, K16 and F5. -/
theorem test_illegal_words :
    [0x5121, 0x912F, 0x8018, 0x801F, 0xE1A0, 0xF000, 0x0000].all
      (fun w : Word => match decode w with | .ok _ => false | .error _ => true) = true := by decide

theorem test_decode_bytes_is_big_endian : decodeBytes [0x12, 0x34, 0x56] = .ok (.jp 0x234, [0x56]) := rfl

theorem test_one_byte_is_truncated : decodeBytes [0x12] = .error .truncated := rfl

/-! ## Control transfer: vectors C1 to C21 -/

theorem test_ret : (fun t : State => (t.pc, t.stack)) (ran 0x00EE { start with stack := [0x206] }) = (0x206, []) := by
  decide

theorem test_ret_empty :
    (ran 0x00EE start).status = .faulted ⟨.stackUnderflow, some 0x00EE, 0x200⟩ := rfl

theorem test_jp : (ran 0x1234 start).pc = 0x234 := by decide

theorem test_call :
    (fun t : State => (t.pc, t.stack)) (ran 0x2210 (start.setPc 0x204)) = (0x210, [0x206]) := by decide

theorem test_call_full :
    (ran 0x2300 { start with stack := List.replicate 16 0x202 }).status =
      .faulted ⟨.stackOverflow 16, some 0x2300, 0x200⟩ := rfl

theorem test_seImm : (ran 0x3A42 (regs [(0xA, 0x42)] start)).pc = 0x204 := by decide
theorem test_seImm_not : (ran 0x3A42 (regs [(0xA, 0x43)] start)).pc = 0x202 := by decide
theorem test_sneImm : (ran 0x4A42 (regs [(0xA, 0x43)] start)).pc = 0x204 := by decide
theorem test_sneImm_not : (ran 0x4A42 (regs [(0xA, 0x42)] start)).pc = 0x202 := by decide
theorem test_seReg : (ran 0x5120 (regs [(1, 7), (2, 7)] start)).pc = 0x204 := by decide
theorem test_seReg_not : (ran 0x5120 (regs [(1, 7), (2, 8)] start)).pc = 0x202 := by decide
theorem test_sneReg : (ran 0x9120 (regs [(1, 7), (2, 8)] start)).pc = 0x204 := by decide
theorem test_sneReg_not : (ran 0x9120 (regs [(1, 7), (2, 7)] start)).pc = 0x202 := by decide
theorem test_jpOff : (ran 0xBFFF (regs [(0, 0xFF)] start)).pc = 0x10FE := by decide

theorem test_jpOff_quirk :
    (ran 0xB300 (config ({ · with jumpVx := true }) (regs [(0, 0x10), (3, 0x20)] start))).pc = 0x320 := by decide

/-! ## Arithmetic: vectors A1 to A29 -/

/-- V0, and VF. -/
def v0f (s : State) : Byte × Byte := (s.getV 0, s.getV 0xF)

/-- 8XY6 and 8XYE without the shift quirk. -/
def modern : State → State := config ({ · with legacyShift := false })

theorem test_ldImm : (ran 0x6A5C start).getV 0xA = 0x5C := by decide
theorem test_addImm : v0f (ran 0x7001 (regs [(0, 0xFF), (0xF, 0x77)] start)) = (0x00, 0x77) := by decide
theorem test_addImm_flag_register : (ran 0x7F05 (regs [(0xF, 0x10)] start)).getV 0xF = 0x15 := by decide
theorem test_ldReg : (ran 0x8010 (regs [(1, 0x33)] start)).getV 0 = 0x33 := by decide
theorem test_orReg : v0f (ran 0x8011 (regs [(0, 0xF0), (1, 0x0F), (0xF, 0x55)] start)) = (0xFF, 0x55) := by decide
theorem test_andReg : v0f (ran 0x8012 (regs [(0, 0xF3), (1, 0x3F), (0xF, 0x55)] start)) = (0x33, 0x55) := by decide
theorem test_xorReg : v0f (ran 0x8013 (regs [(0, 0xFF), (1, 0x0F), (0xF, 0x55)] start)) = (0xF0, 0x55) := by decide
theorem test_addReg : v0f (ran 0x8014 (regs [(0, 0x80), (1, 0x80)] start)) = (0x00, 1) := by decide
theorem test_addReg_flag_register : (ran 0x8F14 (regs [(0xF, 0x10), (1, 0x20)] start)).getV 0xF = 0 := by decide
theorem test_subReg : v0f (ran 0x8015 (regs [(0, 0x03), (1, 0x05)] start)) = (0xFE, 0) := by decide
theorem test_subReg_equal : v0f (ran 0x8015 (regs [(0, 0x07), (1, 0x07)] start)) = (0x00, 1) := by decide
theorem test_shrReg : v0f (ran 0x8016 (regs [(0, 0x44), (1, 0x03)] start)) = (0x01, 1) := by decide
theorem test_shrReg_modern : v0f (ran 0x8016 (modern (regs [(0, 0x44), (1, 0x03)] start))) = (0x22, 0) := by decide
theorem test_subnReg : v0f (ran 0x8017 (regs [(0, 0x30), (1, 0x10)] start)) = (0xE0, 0) := by decide
theorem test_subnReg_no_borrow : v0f (ran 0x8017 (regs [(0, 0x10), (1, 0x30)] start)) = (0x20, 1) := by decide
theorem test_shlReg : v0f (ran 0x801E (regs [(0, 0x80), (1, 0x01)] start)) = (0x02, 0) := by decide
theorem test_shlReg_modern : v0f (ran 0x801E (modern (regs [(0, 0x80)] start))) = (0x00, 1) := by decide
theorem test_rnd : (ran 0xC30F { start with rngBytes := [0xA7] }).getV 3 = 0x07 := by decide

/-! ## Index register and memory: vectors M1 to M25 -/

/-- Three bytes from an address. -/
def three (a : Nat) (s : State) : Byte × Byte × Byte := (s.byteAt a, s.byteAt (a + 1), s.byteAt (a + 2))

theorem test_ldI : (ran 0xAFFF start).i = 0xFFF := by decide

theorem test_addI :
    (fun t : State => (t.i, t.getV 0xF)) (ran 0xF21E ((regs [(2, 0x10)] start).setI 0xFF8)) = (0x008, 1) := by decide

theorem test_addI_flag_register :
    (fun t : State => (t.i, t.getV 0xF)) (ran 0xFF1E ((regs [(0xF, 0x05)] start).setI 0x100)) = (0x105, 0) := by decide

theorem test_ldFont : (ran 0xF029 (regs [(0, 0x1A)] start)).i = 0x082 := by decide

theorem test_storeBcd : three 0x300 (ran 0xF033 ((regs [(0, 254)] start).setI 0x300)) = (2, 5, 4) := by decide

theorem test_storeBcd_past_the_end :
    (ran 0xF033 (start.setI 0xFFE)).status = .faulted ⟨.addressOutOfRange 0x1000, some 0xF033, 0x200⟩ := rfl

theorem test_storeRegs :
    (fun t => (three 0x400 t, t.i))
      (ran 0xF255 (config ({ · with indexAdvance := true }) ((regs [(0, 1), (1, 2), (2, 3)] start).setI 0x400))) =
      ((1, 2, 3), 0x403) := by decide

theorem test_storeRegs_is_fetched_next :
    (fun t : State => t.fetch16 t.pc) (ran 0xF155 ((regs [(0, 0x61), (1, 0x23)] start).setI 0x202)) = .ok 0x6123 := rfl

theorem test_loadRegs :
    (fun t : State => (t.getV 0, t.getV 1, t.getV 2, t.getV 3, t.i))
      (ran 0xF265 ((regs [(3, 9)] (start.fill 0x300 [2, 5, 4, 7])).setI 0x300)) = (2, 5, 4, 9, 0x300) := by decide

theorem test_loadRegs_past_the_end :
    (ran 0xFF65 (start.setI 0xFF1)).status = .faulted ⟨.addressOutOfRange 0x1000, some 0xFF65, 0x200⟩ := rfl

/-! ## Framebuffer: vectors D1, D2, D5, D10 -/

theorem test_cls : (fun t : State => (t.pixel (3, 5), t.getV 0xF)) (ran 0x00E0 (lit (3, 5) (regs [(0xF, 0x33)] start))) =
    (false, 0x33) := by decide

theorem test_drw_misses :
    (fun t : State => (t.pixel (0, 0), t.pixel (0, 1), t.getV 0xF))
      (ran 0xD011 ((lit (0, 0) (start.fill 0x300 [0x40])).setI 0x300)) = (true, true, 0) := by decide

theorem test_drw_wraps :
    (fun t : State => (t.pixel (0, 63), t.pixel (0, 0), t.pixel (0, 3), t.pixel (0, 4), t.getV 0xF))
      (ran 0xD011 (config ({ · with spriteWrap := true })
        ((lit (0, 0) (regs [(0, 60)] (start.fill 0x300 [0xFF]))).setI 0x300))) = (true, false, true, false, 1) := by decide

/-! ## Keys and timers: vectors K1 to K15 -/

theorem test_skp : (ran 0xE19E { regs [(1, 5)] start with keys := 0x0020 }).pc = 0x204 := by decide

theorem test_skp_no_key :
    (ran 0xE19E (regs [(1, 0x10)] start)).status = .faulted ⟨.keyIndexOutOfRange 0x10, some 0xE19E, 0x200⟩ := rfl

theorem test_sknp : (ran 0xE1A1 (regs [(1, 5)] start)).pc = 0x204 := by decide

theorem test_waitKey_waits :
    (fun t : State => (t.pc, t.getV 3)) (ran 0xF30A ((regs [(3, 0x77)] start).setPc 0x210)) = (0x210, 0x77) := by decide

theorem test_waitKey :
    (fun t : State => (t.pc, t.getV 3)) (ran 0xF30A { start.setPc 0x210 with keys := 0x0100 }) = (0x212, 8) := by decide

theorem test_readDt : (ran 0xF507 (start.setDt 0x3C)).getV 5 = 0x3C := by decide
theorem test_setDt : (ran 0xF215 (regs [(2, 5)] start)).dt = 5 := by decide
theorem test_setSt : (ran 0xF218 (regs [(2, 0x1E)] start)).st = 0x1E := by decide
theorem test_tick : (fun t : State => (t.dt, t.st)) ((start.setDt 1).setSt 3).tick = (0, 2) := by decide

/-! ## Fetch, load and frame: vectors F2, F4, F5, F7, F10 -/

theorem test_fetch_at_the_end :
    (stepped (start.setPc 0xFFF)).status = .faulted ⟨.addressOutOfRange 0x1000, none, 0xFFF⟩ := rfl

theorem test_empty_memory_is_no_program :
    (stepped start).status = .faulted ⟨.decodeError 0, some 0, 0x200⟩ := rfl

theorem test_halt : (fun t : State => (t.status, t.dt))
    (stepped { start.setDt 3 with phase := .top, frameInputs := [⟨0, true⟩] }) = (.halted, 3) := by decide

theorem test_latch : (fun t : State => (t.keys, t.phase))
    (stepped { start with phase := .top, frameInputs := [⟨0x0020, false⟩] }) = (0x0020, .batch 4) := by decide

theorem test_first_step_after_reset : (ran 0x6A2F State.reset).getV 0xA = 0x2F := by decide

/-! ## Witnesses: for each obligation with hypotheses, what meets them -/

theorem witness_EncodeOfDecodeIsTheWord : decode 0xFF65 = .ok (.loadRegs 0xF) := rfl

theorem witness_NoTwoOpcodeRowsMatchOneWord :
    ∃ r q, opcodeRows[(33 : Fin 34).val]? = some r ∧ opcodeRows[(33 : Fin 34).val]? = some q ∧
      r.accepts 0xFF65 = true ∧ q.accepts 0xFF65 = true := ⟨_, _, rfl, rfl, rfl, rfl⟩

theorem witness_DecodeAgreesWithTheOpcodeMap :
    (∃ r, opcodeRows[(2 : Fin 34).val]? = some r ∧ r.accepts 0x1234 = true) ∧
    ∃ i, decode 0x1234 = .ok i ∧ i.rowIndex = (2 : Fin 34).val := ⟨⟨_, rfl, rfl⟩, _, rfl, rfl⟩

theorem witness_WordsOfNoRowAreIllegal :
    decode 0xFFFF = .error (.illegalWord 0xFFFF) ∧ ∀ r ∈ opcodeRows, r.accepts 0xFFFF = false := ⟨rfl, by decide⟩

/-- The font's base at both ends of its range, the least capacity and the least batch. -/
theorem witness_ConstructedMachine :
    { cfg with fontBase := 0x000, stackCapacity := 1, instrPerFrame := 1 }.wellFormed = true ∧
    { cfg with fontBase := 0x1B0 }.wellFormed = true := by decide

/-- The longest image that fits, the empty image, and the shortest that does not. -/
theorem witness_LoadPlacesTheImageOrRejectsIt :
    (List.replicate 3584 (0xA5 : Byte)).length ≤ 3584 ∧ ([] : List Byte).length ≤ 3584 ∧
    3584 < (List.replicate 3585 (0xA5 : Byte)).length := by
  simp only [List.length_replicate, List.length_nil]; omega

/-- The last fetch address with a legal and an illegal word, and the first two addresses past it. -/
theorem witness_StepRunsTheDecodedInstruction :
    start.status = .running ∧ start.phase = .batch (0 + 1) ∧
    ((start.fill 0xFFE [0x12, 0x00]).setPc 0xFFE).pc.toNat ≤ 0xFFE ∧
    decode (wordOfBytes ((start.fill 0xFFE [0x12, 0x00]).byteAt 0xFFE) ((start.fill 0xFFE [0x12, 0x00]).byteAt 0xFFF)) =
      .ok (.jp 0x200) ∧
    decode (wordOfBytes (start.byteAt 0xFFE) (start.byteAt 0xFFF)) = .error (.illegalWord 0) ∧
    0xFFE < (start.setPc 0xFFF).pc.toNat ∧ 0xFFE < (start.setPc 0x1000).pc.toNat :=
  ⟨rfl, rfl, by decide, rfl, rfl, by decide, by decide⟩

theorem witness_PlacedWordRunsNext : decode 0x6A2F = .ok (.ldImm 0xA 0x2F) := rfl

theorem witness_StoppedMachineStays :
    start.halt.status ≠ .running ∧ (ran 0x00EE start).status ≠ .running := by decide

/-- One entry short of the capacity, and at it. -/
theorem witness_CallPushesAndJumps :
    { ready with stack := List.replicate 15 0x202 }.stack.length ≠ ready.cfg.stackCapacity ∧
    { ready with stack := List.replicate 16 0x202 }.stack.length = ready.cfg.stackCapacity := by decide

theorem witness_ReturnPops : { ready with stack := [0x206] }.stack = [] ++ [0x206] ∧ ready.stack = [] := by decide

theorem witness_ReturnComesBackAfterTheCall :
    ready.stack.length ≠ ready.cfg.stackCapacity ∧ exec (.call 0xFFF) ready = .next (did (.call 0xFFF) ready) ∧
    (regs [(0, 9)] (did (.call 0xFFF) ready)).stack = (did (.call 0xFFF) ready).stack := ⟨by decide, rfl, rfl⟩

theorem witness_JumpWithOffset :
    ready.cfg.jumpVx = false ∧ (config ({ · with jumpVx := true }) ready).cfg.jumpVx = true ∧
    (15 : Reg).val = (0xFFF : Addr12).toNat / 256 ∧ (0 : Reg).val = (0x0FF : Addr12).toNat / 256 := by decide

/-- VF as the destination, and another register (8XY4, 8XY5, 8XY7). -/
theorem witness_AddSetsCarry : (0xE : Reg) ≠ 15 ∧ (0 : Reg) ≠ 15 := by decide

theorem witness_SubtractionsSetNotBorrow : (0xE : Reg) ≠ 15 ∧ (0 : Reg) ≠ 15 := by decide

theorem witness_ShiftsMoveOneBitIntoTheFlag :
    0x81 = (if (regs [(1, 0x81)] ready).cfg.legacyShift then ((regs [(1, 0x81)] ready).getV 1).toNat
      else ((regs [(1, 0x81)] ready).getV 0).toNat) ∧
    0x44 = (if (modern (regs [(0, 0x44)] ready)).cfg.legacyShift then ((modern (regs [(0, 0x44)] ready)).getV 1).toNat
      else ((modern (regs [(0, 0x44)] ready)).getV 0).toNat) ∧ (0xE : Reg) ≠ 15 := by decide

theorem witness_RandomByteIsMasked : { ready with rngBytes := [0xA7, 0x01] }.rngBytes = 0xA7 :: [0x01] := rfl

theorem witness_BcdStoresThreeDigits : (ready.setI 0xFFD).i.toNat + 2 ≤ 0xFFF := by decide

/-- The last index at which V0 to VF fit, and V0 alone at the last byte. -/
theorem witness_StoreRegistersAtIndex :
    (ready.setI 0xFF0).i.toNat + (15 : Reg).val ≤ 0xFFF ∧ (ready.setI 0xFFF).i.toNat + (0 : Reg).val ≤ 0xFFF := by
  decide

theorem witness_LoadRegistersFromIndex :
    (ready.setI 0xFF0).i.toNat + (15 : Reg).val ≤ 0xFFF ∧ (ready.setI 0xFFF).i.toNat + (0 : Reg).val ≤ 0xFFF := by
  decide

theorem witness_StoredRegistersLoadBack :
    (ready.setI 0xFFE).cfg.indexAdvance = false ∧ (ready.setI 0xFFE).i.toNat + (1 : Reg).val ≤ 0xFFF ∧
    exec (.storeRegs 1) (ready.setI 0xFFE) = .next (did (.storeRegs 1) (ready.setI 0xFFE)) ∧
    (regs [(0, 9)] (did (.storeRegs 1) (ready.setI 0xFFE))).i = (ready.setI 0xFFE).i ∧
    (regs [(0, 9)] (did (.storeRegs 1) (ready.setI 0xFFE))).mem = (did (.storeRegs 1) (ready.setI 0xFFE)).mem ∧
    (regs [(0, 9)] (did (.storeRegs 1) (ready.setI 0xFFE))).cfg = (did (.storeRegs 1) (ready.setI 0xFFE)).cfg :=
  ⟨rfl, by decide, rfl, rfl, rfl, rfl⟩

/-- The first index past the end for each access. -/
theorem witness_AccessesPastTheEndFault :
    0xFFF < (ready.setI 0xFFE).i.toNat + 2 ∧ 0xFFF < (ready.setI 0xFF1).i.toNat + (15 : Reg).val ∧
    0xFFF < (ready.setI 0x1000).i.toNat + (0 : Reg).val ∧
    1 ≤ (1 : Nibble).toNat ∧ 0xFFF < (ready.setI 0x1000).i.toNat + (1 : Nibble).toNat - 1 := by decide

theorem witness_StoresAreSeenByTheNextFetch :
    (ready.setI 0xFFE).i.toNat + (1 : Reg).val ≤ 0xFFF ∧ (0 : Reg).val + 1 ≤ (1 : Reg).val ∧
    (0xFFE : Word).toNat = (ready.setI 0xFFE).ea (0 : Reg).val ∧
    exec (.storeRegs 1) (ready.setI 0xFFE) = .next (did (.storeRegs 1) (ready.setI 0xFFE)) ∧
    (1 : Reg).val = (0 : Reg).val + 1 := ⟨by decide, by decide, by decide, rfl, rfl⟩

theorem witness_EveryByteIsWritable : (0x000 : Nat) ≤ 0xFFF ∧ (0x050 : Nat) ≤ 0xFFF ∧ (0xFFF : Nat) ≤ 0xFFF := by decide

/-- The draw of one set bit at (0, 0), and a pixel elsewhere. -/
def dot : State := (ready.fill 0xFFF [0x80]).setI 0xFFF

theorem dot_covers : SpriteCovers dot 0 1 1 (0, 0) :=
  ⟨0, 0, by decide, by decide, by decide, by unfold LandsAt; decide⟩

theorem lit_dot_covers : SpriteCovers (lit (0, 0) dot) 0 1 1 (0, 0) :=
  ⟨0, 0, by decide, by decide, by decide, by unfold LandsAt; decide⟩

theorem dot_covers_only (p : Place) (h : SpriteCovers dot 0 1 1 p) : p = (0, 0) := by
  obtain ⟨r, c, hr, hc, hb, h1, h2⟩ := h
  have hr0 : r = 0 := by change r < 1 at hr; omega
  subst hr0
  have hc0 : c = 0 := by
    revert hb; revert hc; revert c
    intro c _ hc hb
    have : ∀ c : Fin 8, (dot.byteAt (dot.i.toNat + 0)).getLsbD (7 - c.val) = true → c = 0 := by decide
    exact congrArg Fin.val (this ⟨c, hc⟩ hb)
  subst hc0
  exact Prod.ext (Fin.ext h1) (Fin.ext h2)

/-- The draw of one byte at the last address, of no byte past the end, and of 15 bytes at the last index for them; a
pixel the sprite covers and one it does not; a draw that meets a set pixel and one that meets none. -/
theorem witness_DrawTogglesTheSpritePixels :
    ((1 : Nibble).toNat ≠ 0 → dot.i.toNat + (1 : Nibble).toNat - 1 ≤ 0xFFF) ∧
    ((0 : Nibble).toNat ≠ 0 → (ready.setI 0x1000).i.toNat + (0 : Nibble).toNat - 1 ≤ 0xFFF) ∧
    ((15 : Nibble).toNat ≠ 0 → (ready.setI 0xFF1).i.toNat + (15 : Nibble).toNat - 1 ≤ 0xFFF) ∧
    SpriteCovers dot 0 1 1 (0, 0) ∧ ¬ SpriteCovers dot 0 1 1 (31, 63) ∧
    (∃ p, SpriteCovers (lit (0, 0) dot) 0 1 1 p ∧ (lit (0, 0) dot).pixel p = true) ∧
    (∀ p, SpriteCovers dot 0 1 1 p → dot.pixel p = false) :=
  ⟨by decide, by decide, by decide, dot_covers, fun h => absurd (dot_covers_only _ h) (by decide),
   ⟨(0, 0), lit_dot_covers, by decide⟩,
   fun p h => by rw [dot_covers_only p h]; decide⟩

theorem witness_DrawingTwiceRestores :
    (0 : Reg) ≠ 15 ∧ (1 : Reg) ≠ 15 ∧ ((1 : Nibble).toNat ≠ 0 → dot.i.toNat + (1 : Nibble).toNat - 1 ≤ 0xFFF) ∧
    exec (.drw 0 1 1) dot = .next (did (.drw 0 1 1) dot) ∧ ∃ p, SpriteCovers dot 0 1 1 p ∧ dot.pixel p = false :=
  ⟨by decide, by decide, by decide, rfl, (0, 0), dot_covers, by decide⟩

/-- What refutes the derived sentence of R102: the one covered pixel is set before the pair of draws. -/
theorem witness_SecondDrawAlwaysCollides :
    (0 : Reg) ≠ 15 ∧ (1 : Reg) ≠ 15 ∧
    ((1 : Nibble).toNat ≠ 0 → (lit (0, 0) dot).i.toNat + (1 : Nibble).toNat - 1 ≤ 0xFFF) ∧
    exec (.drw 0 1 1) (lit (0, 0) dot) = .next (did (.drw 0 1 1) (lit (0, 0) dot)) ∧
    (∃ p, SpriteCovers (lit (0, 0) dot) 0 1 1 p) :=
  ⟨by decide, by decide, by decide, rfl, (0, 0), lit_dot_covers⟩

theorem test_second_draw_over_a_set_pixel_meets_none :
    (did (.drw 0 1 1) (did (.drw 0 1 1) (lit (0, 0) dot))).getV 15 = 0 := by decide

/-- The highest key number, pressed, and the first value above it. -/
theorem witness_SkipsOnKey :
    ((regs [(1, 0xF)] ready).getV 1).toNat = (15 : Key).val ∧
    { regs [(1, 0xF)] ready with keys := 0x8000 }.keyDown 15 = true ∧ (regs [(1, 0xF)] ready).keyDown 15 = false ∧
    0xF < ((regs [(1, 0x10)] ready).getV 1).toNat := by decide

theorem witness_WaitForKey : ready.keys = 0 ∧ { ready with keys := 0x8000 }.keys ≠ 0 := by decide

theorem witness_AnyPressedKeyIsAdmitted :
    cfg.wellFormed = true ∧ (0x8001 : BitVec 16).getLsbD (15 : Key).val = true ∧
    (0x8001 : BitVec 16).getLsbD (0 : Key).val = true := by decide

theorem witness_OnlyClearAndDrawChangePixels :
    (lit (3, 5) ready).status = .running ∧ exec .cls (lit (3, 5) ready) = .next (did .cls (lit (3, 5) ready)) ∧
    (did .cls (lit (3, 5) ready)).status = .running ∧ (did .cls (lit (3, 5) ready)).fb ≠ (lit (3, 5) ready).fb :=
  ⟨rfl, rfl, rfl, fun h => absurd (congrArg (Framebuffer.pixel · (3, 5)) h) (by decide)⟩

/-- The byte at I + 15, the last one FX55 can reach. -/
theorem witness_OnlyStoresChangeMemory :
    ((regs [(15, 7)] ready).setI 0x300).status = .running ∧
    exec (.storeRegs 15) ((regs [(15, 7)] ready).setI 0x300) =
      .next (did (.storeRegs 15) ((regs [(15, 7)] ready).setI 0x300)) ∧
    (did (.storeRegs 15) ((regs [(15, 7)] ready).setI 0x300)).status = .running ∧
    (did (.storeRegs 15) ((regs [(15, 7)] ready).setI 0x300)).byteAt 0x30F ≠
      ((regs [(15, 7)] ready).setI 0x300).byteAt 0x30F := ⟨rfl, rfl, rfl, by decide⟩

theorem witness_OnlyCallAndReturnChangeTheStack :
    ready.status = .running ∧ exec (.call 0x300) ready = .next (did (.call 0x300) ready) ∧
    (did (.call 0x300) ready).status = .running ∧ (did (.call 0x300) ready).stack ≠ ready.stack :=
  ⟨rfl, rfl, rfl, by decide⟩

theorem witness_InstructionsLeaveTheDevices :
    (regs [(2, 5)] ready).status = .running ∧
    exec (.setDt 2) (regs [(2, 5)] ready) = .next (did (.setDt 2) (regs [(2, 5)] ready)) ∧
    (did (.setDt 2) (regs [(2, 5)] ready)).status = .running ∧ (did (.setDt 2) (regs [(2, 5)] ready)).dt ≠ ready.dt ∧
    exec (.setSt 2) (regs [(2, 5)] ready) = .next (did (.setSt 2) (regs [(2, 5)] ready)) ∧
    (did (.setSt 2) (regs [(2, 5)] ready)).st ≠ ready.st := ⟨rfl, rfl, rfl, by decide, rfl, by decide⟩

theorem witness_OnlyListedInstructionsChangeTheFlag :
    ready.status = .running ∧ exec (.subReg 0 1) ready = .next (did (.subReg 0 1) ready) ∧
    (did (.subReg 0 1) ready).status = .running ∧ (did (.subReg 0 1) ready).getV 15 ≠ ready.getV 15 :=
  ⟨rfl, rfl, rfl, by decide⟩

theorem witness_ConfigurationIsFixed : step start = .next (stepped start) := rfl

/-- A batch at its end, with the sound timer running. -/
def ending : State := { ready.setSt 1 with phase := .batch 0 }

theorem witness_OutputsChangeOnlyAtPublication :
    step ending = .next (stepped ending) ∧ (stepped ending).toneActive ≠ ending.toneActive := ⟨rfl, by decide⟩

/-- The top of a frame for both values of the halt request. -/
theorem witness_FrameTop :
    { start with phase := .top, frameInputs := [⟨0xFFFF, false⟩, ⟨0, true⟩] }.status = .running ∧
    { start with phase := .top, frameInputs := [⟨0xFFFF, false⟩, ⟨0, true⟩] }.phase = .top ∧
    { start with phase := .top, frameInputs := [⟨0xFFFF, false⟩, ⟨0, true⟩] }.frameInputs =
      ⟨0xFFFF, false⟩ :: [⟨0, true⟩] ∧
    { start with phase := .top, frameInputs := [⟨0, true⟩] }.frameInputs = ⟨0, true⟩ :: [] := ⟨rfl, rfl, rfl, rfl⟩

theorem witness_BatchEndPublishes : ending.status = .running ∧ ending.phase = .batch 0 := ⟨rfl, rfl⟩

theorem witness_StepsMakeTheFrame : State.reset.status = .running ∧ State.reset.phase = .top := ⟨rfl, rfl⟩

/-- A frame whose first instruction faults, and a frame with a halt request. -/
theorem witness_FaultedFramePublishesNothing :
    start.status = .running ∧ (∃ t, frame 0 false start = .next t ∧ t.status ≠ .running) ∧
    ∃ t, frame 0 true start = .next t ∧ t.status ≠ .running :=
  ⟨rfl, ⟨_, rfl, by simp [State.enterFault]⟩, _, rfl, by simp [State.halt]⟩

theorem witness_LoadedMachineMeetsTheInvariant :
    cfg.wellFormed = true ∧ ∃ t, (State.construct cfg).load [0x12, 0x00] = .ok t := ⟨by decide, _, rfl⟩

theorem start_inv : start.Inv where
  cfg_legal := by decide
  mem_canonical := ⟨List.Pairwise.nil, fun _ h => absurd h List.not_mem_nil⟩
  stack_bounded := by decide
  index_range _ := by decide
  pc_range _ := by decide
  returns_range _ := fun _ h => absurd h List.not_mem_nil
  batch_range := fun left h => by cases h; decide

theorem witness_EveryStepKeepsTheInvariant : start.Inv ∧ step start = .next (stepped start) := ⟨start_inv, rfl⟩

end Sys2Proof.Tests
end

section
/-! The default machine of R5: what reset gives its configuration. -/

namespace Sys2Proof.Proofs.Scope

open Sys2Proof Sys2Proof.Machine

@[simp] theorem construct_cfg (cfg : Config) : (State.construct cfg).cfg = cfg := rfl

@[simp] theorem reset_cfg : State.reset.cfg = Config.default := construct_cfg Config.default

/-- Whatever batch size the spec leaves open (R140, log entry 5), a frame of the default machine runs at least
one step. -/
theorem default_instrPerFrame_pos : 1 ≤ Config.default.instrPerFrame :=
  Nat.le_add_left 1 Config.openBatchSizePred

/-- Settles O8: reset constructs the default configuration, whose values are those of R5. -/
theorem resetIsTheDefaultMachine : Obligations.ResetIsTheDefaultMachine := by
  unfold Obligations.ResetIsTheDefaultMachine
  rw [reset_cfg]
  have reset_eq : State.reset = State.construct Config.default := rfl
  exact ⟨reset_eq, rfl, rfl, rfl, rfl, rfl, rfl, default_instrPerFrame_pos⟩

end Sys2Proof.Proofs.Scope
end

section
/-! The invariant of the machine (`State.Inv`): which updates keep it, then an instruction, an instruction step and
every step. The bounds turn on three facts: a fetch succeeds only up to 0xFFE (R48), so a running instruction sees
PC at most 0x1000; an access past 0xFFF faults (R111), so I advances at most to 0x1000 (D13); a fault entry leaves
canonical memory and a stack within its capacity. -/

namespace Sys2Proof.Machine

/-! ## What bounds the new values of I and PC -/

/-- The font table of a legal configuration ends below the program (R5). -/
theorem fontBase_add_le {c : Config} (h : c.wellFormed = true) : c.fontBase.toNat + 80 ≤ 0x200 := by
  simp only [Config.wellFormed, Config.fontFits, Bool.and_eq_true, decide_eq_true_eq] at h
  obtain ⟨⟨⟨hfont, -⟩, -⟩, -⟩ := h
  exact hfont

theorem zext12_lt (a : Addr12) : (zext12 a).toNat < 0x1000 := by
  rw [zext12_toNat]; exact a.isLt

/-- A glyph lies below the program (R5, R95). -/
theorem State.glyphAddr_lt {s : State} (h : s.cfg.wellFormed = true) (b : Byte) : (s.glyphAddr b).toNat < 0x200 := by
  have hbase := fontBase_add_le h
  have hoffset : 5 * (b.toNat % 16) ≤ 75 := by omega
  rw [State.glyphAddr, BitVec.toNat_add, zext12_toNat, BitVec.toNat_ofNat]
  generalize 5 * (b.toNat % 16) = offset at hoffset ⊢
  omega

/-- The target of BNNN is not masked, and at most 0xFFF + 0xFF (R80, D24). -/
theorem State.jumpTarget_le (s : State) (nnn : Addr12) :
    (zext12 nnn + zext8 (s.jumpOffset nnn)).toNat ≤ 0x10FE := by
  have hbase := zext12_lt nnn
  have hoff := (s.jumpOffset nnn).isLt
  rw [BitVec.toNat_add, zext8_toNat]
  omega

/-- FX1E keeps 12 bits of the sum (R94). -/
theorem indexSum_lt (n : Nat) : (BitVec.ofNat 16 (n % 0x1000)).toNat < 0x1000 := by
  rw [BitVec.toNat_ofNat]; omega

/-- An access that fits leaves I, advanced past it, at most at 0x1000 (R97, R98, D13). -/
theorem index_advanced_le {i : Word} {n : Nat} (h : i.toNat + n ≤ memSize) :
    (i + BitVec.ofNat 16 n).toNat ≤ 0x1000 := by
  change i.toNat + n ≤ 0x1000 at h
  rw [BitVec.toNat_add, BitVec.toNat_ofNat]; omega

/-- A fetch that succeeds has both its bytes inside the address space (R48). -/
theorem State.fetch16_ok_le {s : State} {a w : Word} (h : s.fetch16 a = .ok w) : a.toNat ≤ 0xFFE := by
  unfold State.fetch16 at h
  split at h
  · cases h
  · omega

/-! ## The updates that keep the invariant -/

/-- The parts of the state the invariant speaks of, besides whether a fault has stopped the block. -/
def State.bounded (s : State) : Config × Memory × List Word × Word × Word × Phase :=
  (s.cfg, s.mem, s.stack, s.i, s.pc, s.phase)

variable {s t : State}

/-- A state with the same bounded parts meets the invariant too, when it is safe only if the first one is. -/
theorem State.Inv.congr (h : s.Inv) (e : t.bounded = s.bounded) (hsafe : t.Safe → s.Safe) : t.Inv := by
  simp only [State.bounded, Prod.mk.injEq] at e
  obtain ⟨hcfg, hmem, hstack, hi, hpc, hphase⟩ := e
  constructor
  · rw [hcfg]; exact h.cfg_legal
  · rw [hcfg, hmem]; exact h.mem_canonical
  · rw [hcfg, hstack]; exact h.stack_bounded
  · rw [hi]; exact fun k => h.index_range (hsafe k)
  · rw [hpc]; exact fun k => h.pc_range (hsafe k)
  · rw [hstack]; exact fun k => h.returns_range (hsafe k)
  · rw [hcfg, hphase]; exact h.batch_range

theorem State.Inv.setPc (h : s.Inv) {a : Word} (ha : a.toNat ≤ 0x10FE) : (s.setPc a).Inv :=
  { h with pc_range := fun _ => ha }

theorem State.Inv.setI (h : s.Inv) {a : Word} (ha : a.toNat ≤ 0x1000) : (s.setI a).Inv :=
  { h with index_range := fun _ => ha }

theorem State.Inv.setPhase (h : s.Inv) {p : Phase} (hp : ∀ left, p = .batch left → left ≤ s.cfg.instrPerFrame) :
    (s.setPhase p).Inv :=
  { h with batch_range := hp }

theorem State.Inv.setStack (h : s.Inv) {l : List Word} (hl : l.length ≤ s.cfg.stackCapacity)
    (ha : ∀ a ∈ l, a.toNat ≤ 0x1000) : { s with stack := l }.Inv :=
  { h with
    stack_bounded := hl
    returns_range := fun _ => ha }

theorem State.Inv.skipIf (h : s.Inv) (hpc : s.pc.toNat ≤ 0x1000) (c : Bool) : (s.skipIf c).Inv := by
  unfold State.skipIf
  split
  · exact h.setPc (by bv_omega)
  · exact h

theorem State.Inv.advanceI (h : s.Inv) {x : Reg} (hx : s.i.toNat + (x.val + 1) ≤ memSize) : (s.advanceI x).Inv := by
  unfold State.advanceI
  split
  · exact h.setI (index_advanced_le hx)
  · exact h

theorem State.Inv.fill (h : s.Inv) {a : Nat} {bs : List Byte} (hb : a + bs.length ≤ memSize) : (s.fill a bs).Inv := by
  rw [State.fill_mem_only]
  exact { h with mem_canonical := State.fill_wf h.mem_canonical (.inr hb) }

/-- Fault entry keeps the invariant: what it leaves of memory and stack is bounded, and no range is asked of a
faulted state (R115). -/
theorem State.Inv.enterFault (h : s.Inv) (r : FaultReport) : (s.enterFault r).Inv where
  cfg_legal := h.cfg_legal
  mem_canonical := s.enterFault_wf r
  stack_bounded := List.length_take_le _ _
  index_range := Bool.noConfusion
  pc_range := Bool.noConfusion
  returns_range := Bool.noConfusion
  batch_range := fun _ => Phase.noConfusion

/-! ## Calls and returns -/

/-- A call pushes the address after it, at most 0x1000 (R75, R73). -/
theorem State.Inv.push (h : s.Inv) (hsafe : s.Safe) (hpc : s.pc.toNat ≤ 0x1000)
    (hroom : s.stack.length ≠ s.cfg.stackCapacity) : { s with stack := s.stack ++ [s.pc] }.Inv := by
  refine h.setStack ?_ fun a ha => ?_
  · have hlen := h.stack_bounded
    rw [List.length_append, List.length_singleton]; omega
  · rcases List.mem_append.mp ha with ha | ha
    · exact h.returns_range hsafe a ha
    · rw [List.mem_singleton.mp ha]; exact hpc

/-- A return leaves a shorter stack, and the address it goes back to was bounded as an entry of it (R73). -/
theorem State.Inv.pop (h : s.Inv) (hsafe : s.Safe) {rest : List Word} {a : Word} (e : s.stack = rest ++ [a]) :
    ({ s with stack := rest }.setPc a).Inv := by
  have hlen := h.stack_bounded
  have hret := h.returns_range hsafe
  rw [e] at hlen hret
  rw [List.length_append] at hlen
  have hrest : { s with stack := rest }.Inv :=
    h.setStack (by omega) fun b hb => hret b (List.mem_append_left _ hb)
  exact hrest.setPc (by have := hret a (by simp); omega)

/-! ## Instructions and steps -/

/-- An instruction that a running machine has fetched keeps the invariant: its own address is `PC - 2`, from 0
to 0xFFE (R13, R48). -/
theorem exec_inv (h : s.Inv) (hsafe : s.Safe) (hlo : 2 ≤ s.pc.toNat) (hhi : s.pc.toNat ≤ 0x1000) (i : Instr) :
    ∃ t, exec i s = .next t ∧ t.Inv := by
  cases i
  case cls | ldImm | addImm | ldReg | orReg | andReg | xorReg | addReg | subReg | shrReg | subnReg | shlReg | rnd
      | readDt | setDt | setSt =>
    exact ⟨_, rfl, h.congr rfl id⟩
  case seImm | sneImm | seReg | sneReg => exact ⟨_, rfl, h.skipIf hhi _⟩
  case jp nnn => exact ⟨_, rfl, h.setPc (by have := zext12_lt nnn; omega)⟩
  case jpOff nnn => exact ⟨_, rfl, h.setPc (s.jumpTarget_le nnn)⟩
  case ldI nnn => exact ⟨_, rfl, h.setI (zext12_lt nnn).le⟩
  case ldFont x => exact ⟨_, rfl, h.setI (by have := s.glyphAddr_lt h.cfg_legal (s.getV x); omega)⟩
  case addI x => exact ⟨_, rfl, (h.setI (indexSum_lt _).le).congr rfl id⟩
  case ret =>
    rcases List.eq_nil_or_concat s.stack with h0 | ⟨rest, a, h0⟩
    · exact ⟨_, execRet_fault h0, h.enterFault _⟩
    · rw [List.concat_eq_append] at h0
      exact ⟨_, execRet_ok h0, h.pop hsafe h0⟩
  case call nnn =>
    by_cases h0 : s.stack.length = s.cfg.stackCapacity
    · exact ⟨_, execCall_fault nnn h0, h.enterFault _⟩
    · exact ⟨_, execCall_ok nnn h0, (h.push hsafe hhi h0).setPc (by have := zext12_lt nnn; omega)⟩
  case skp x =>
    by_cases h0 : (s.getV x).toNat < 16
    · exact ⟨_, execSkp_ok (k := ⟨_, h0⟩) rfl, h.skipIf hhi _⟩
    · exact ⟨_, execSkp_fault h0, h.enterFault _⟩
  case sknp x =>
    by_cases h0 : (s.getV x).toNat < 16
    · exact ⟨_, execSknp_ok (k := ⟨_, h0⟩) rfl, h.skipIf hhi _⟩
    · exact ⟨_, execSknp_fault h0, h.enterFault _⟩
  case waitKey x =>
    by_cases h0 : s.keys = 0
    · exact ⟨_, execWaitKey_none x h0, h.setPc (by bv_omega)⟩
    · obtain ⟨k, _, he⟩ := execWaitKey_some x h0
      exact ⟨_, he, h.congr rfl id⟩
  case drw x y n =>
    by_cases h0 : n.toNat ≠ 0 ∧ memSize < s.i.toNat + n.toNat
    · exact ⟨_, execDrw_fault x y h0.1 h0.2, (h.enterFault _).congr rfl id⟩
    · exact ⟨_, execDrw_ok x y (by omega), h.congr rfl id⟩
  case storeBcd x =>
    by_cases h0 : s.i.toNat + 3 ≤ memSize
    · exact ⟨_, execStoreBcd_ok x h0, h.fill h0⟩
    · exact ⟨_, execStoreBcd_fault x (by omega), h.enterFault _⟩
  case storeRegs x =>
    by_cases h0 : s.i.toNat + (x.val + 1) ≤ memSize
    · refine ⟨_, execStoreRegs_ok h0, State.Inv.advanceI (h.fill ?_) ?_⟩
      · rw [State.regsUpTo_length]; exact h0
      · rw [State.fill_mem_only]; exact h0
    · exact ⟨_, execStoreRegs_fault (by omega), h.enterFault _⟩
  case loadRegs x =>
    by_cases h0 : s.i.toNat + (x.val + 1) ≤ memSize
    · exact ⟨_, execLoadRegs_ok h0, (h.congr (t := s.loadRegs _) rfl id).advanceI h0⟩
    · exact ⟨_, execLoadRegs_fault (by omega), h.enterFault _⟩

/-- One instruction of the batch, with its fetch and decode, keeps the invariant. -/
theorem runInstruction_inv (h : s.Inv) (hsafe : s.Safe) (hrun : runInstruction s = .next t) : t.Inv := by
  rcases runInstruction_cases hrun with ⟨r, rfl⟩ | ⟨w, i, hfetch, -, hexec⟩
  · exact h.enterFault r
  · have hpc := State.fetch16_ok_le hfetch
    have hnext : (s.pc + 2).toNat = s.pc.toNat + 2 := by bv_omega
    obtain ⟨u, hu, hinv⟩ := exec_inv (s := s.setPc (s.pc + 2)) (h.setPc (by omega)) hsafe
      (by rw [State.setPc_pc]; omega) (by rw [State.setPc_pc]; omega) i
    rw [hexec] at hu
    cases hu
    exact hinv

/-- The top of a frame of a running machine keeps the invariant, for every host input (R139). -/
theorem State.Inv.beginFrame (h : s.Inv) (hsafe : s.Safe) (inp : FrameInput) : (s.beginFrame inp).Inv := by
  unfold State.beginFrame
  split
  · exact h.congr rfl fun _ => hsafe
  · have hticked : (s.tick.latchKeys inp.keysIn).Inv := h.congr rfl id
    exact hticked.setPhase fun left e => by cases e; exact Nat.le_refl _

theorem State.Inv.publish (h : s.Inv) : s.publish.Inv :=
  (h.setPhase (p := .top) fun _ => Phase.noConfusion).congr rfl id

theorem State.safe_of_running (h : s.status = .running) : s.Safe := by
  rw [State.Safe, h]; rfl

end Sys2Proof.Machine

namespace Sys2Proof.Proofs.StateRules

open Sys2Proof Sys2Proof.Machine

/-- Settles O60, by the cases of a step. -/
theorem everyStepKeepsTheInvariant : Obligations.EveryStepKeepsTheInvariant := by
  intro s t h hstep
  rcases step_cases hstep with ⟨hrun, -, rfl⟩ | ⟨-, -, rfl⟩ | ⟨left, hrun, hphase, hinstr⟩ | ⟨-, rfl⟩
  · have hinput : s.afterInput.Inv := h.congr rfl id
    exact hinput.beginFrame (State.safe_of_running hrun) _
  · exact h.publish
  · have hleft := h.batch_range _ hphase
    have hbatch : (s.setPhase (.batch left)).Inv := h.setPhase fun k e => by cases e; omega
    exact runInstruction_inv hbatch (State.safe_of_running hrun) hinstr
  · exact h

end Sys2Proof.Proofs.StateRules
end

section
/-! What instructions and steps leave alone: the call stack (R26), VF (R23), the configuration (R20), and a machine
that has stopped (R40). Each rule is read off the frame of an instruction (`writes`, `exec_keeps`) or the cases of a
step. -/

namespace Sys2Proof.Machine

variable {s t : State}

theorem exec_cfg {i : Instr} (h : exec i s = .next t) : t.cfg = s.cfg := by
  rcases exec_cases h with k | ⟨r, rfl | rfl⟩
  · exact k.cfg
  · rfl
  · rfl

theorem runInstruction_cfg (h : runInstruction s = .next t) : t.cfg = s.cfg := by
  rcases runInstruction_cases h with ⟨r, rfl⟩ | ⟨w, i, -, -, hexec⟩
  · rfl
  · exact (exec_cfg hexec).trans (State.setPc_cfg s _)

theorem State.beginFrame_cfg (s : State) (inp : FrameInput) : (s.beginFrame inp).cfg = s.cfg := by
  unfold State.beginFrame; split <;> rfl

end Sys2Proof.Machine

namespace Sys2Proof.Proofs.StateRules

open Sys2Proof Sys2Proof.Machine

/-- Settles O48: the frames of all other instructions keep the stack. -/
theorem onlyCallAndReturnChangeTheStack : Obligations.OnlyCallAndReturnChangeTheStack := by
  intro i s t _ hexec hrun hne
  have hkeep := (exec_keeps hexec hrun).stack
  cases i
  case ret => exact .inl rfl
  case call nnn => exact .inr ⟨nnn, rfl⟩
  all_goals exact absurd (hkeep rfl) hne

/-- Settles O50: VF must be among the registers the instruction's frame names. -/
theorem onlyListedInstructionsChangeTheFlag : Obligations.OnlyListedInstructionsChangeTheFlag := by
  intro i s t _ hexec hrun hne
  have hmem : (15 : Reg) ∈ (writes s i).regs := by
    by_contra hw
    exact hne ((exec_keeps hexec hrun).regs 15 hw)
  cases i
  case addReg x y | subReg x y | shrReg x y | subnReg x y | shlReg x y => exact .inl ⟨x, y, by simp⟩
  case addI x => exact .inr (.inl ⟨x, rfl⟩)
  case drw x y n => exact .inr (.inr (.inl ⟨x, y, n, rfl⟩))
  case ldImm x nn | addImm x nn | rnd x nn =>
    obtain rfl := List.mem_singleton.mp hmem
    exact .inr (.inr (.inr (.inl ⟨nn, by simp⟩)))
  case ldReg x y | orReg x y | andReg x y | xorReg x y =>
    obtain rfl := List.mem_singleton.mp hmem
    exact .inr (.inr (.inr (.inr (.inl ⟨y, by simp⟩))))
  case readDt x | waitKey x =>
    obtain rfl := List.mem_singleton.mp hmem
    simp
  case loadRegs x =>
    have hx : (15 : Reg) ≤ x := by simpa [writes] using hmem
    obtain rfl := Fin.last_le_iff.mp hx
    simp
  all_goals exact absurd hmem List.not_mem_nil

/-- Settles O51, by the cases of a step. -/
theorem configurationIsFixed : Obligations.ConfigurationIsFixed := by
  intro s t hstep
  rcases step_cases hstep with ⟨-, -, rfl⟩ | ⟨-, -, rfl⟩ | ⟨left, -, -, hinstr⟩ | ⟨-, rfl⟩
  · exact State.beginFrame_cfg s.afterInput s.frameInput
  · exact State.publish_cfg s
  · exact (runInstruction_cfg hinstr).trans (State.setPhase_cfg s _)
  · rfl

/-- Settles O13: the frame sequence goes on only while the status is Running. -/
theorem stoppedMachineStays : Obligations.StoppedMachineStays :=
  fun _ hstopped => step_stopped hstopped

end Sys2Proof.Proofs.StateRules
end

section
/-! Memory (spec/20_memory.md): a fetch and a byte write inside the address space, where the bytes of FX55 stand
afterwards, what placing a word does, and the rules R43, R48, R53 and R58 read off them. -/

namespace Sys2Proof.Machine

variable {s : State}

/-! ## Byte writes and fetches -/

theorem State.memWrite_ok {a : Nat} (h : a < memSize) (b : Byte) : s.memWrite a b = .ok (s.setByte a b) :=
  if_pos h

/-- A fetch whose two bytes are inside the address space gives their word (R48). -/
theorem State.fetch16_ok {a : Word} (h : a.toNat ≤ 0xFFE) :
    s.fetch16 a = .ok (wordOfBytes (s.byteAt a.toNat) (s.byteAt (a.toNat + 1))) :=
  if_neg (Nat.not_lt.mpr h)

/-- The instruction a step runs is the one its fetched word decodes to (R61). -/
theorem runInstruction_of_fetch {w : Word} {i : Instr} (hfetch : s.fetch16 s.pc = .ok w) (hi : decode w = .ok i) :
    runInstruction s = exec i (s.setPc (s.pc + 2)) := by
  rw [runInstruction, hfetch]
  simp only [hi]

/-! ## Register stores -/

@[simp] theorem State.advanceI_byteAt (s : State) (x : Reg) (a : Nat) : (s.advanceI x).byteAt a = s.byteAt a :=
  State.byteAt_congr (s.advanceI_cfg x) (s.advanceI_mem x) a

/-- After FX55 the byte at I + k is Vk, for each k up to X (R97). -/
theorem execStoreRegs_byteAt {x k : Reg} {t : State} (h : s.i.toNat + x.val ≤ 0xFFF)
    (hexec : exec (.storeRegs x) s = .next t) (hk : k.val ≤ x.val) : t.byteAt (s.ea k.val) = s.getV k := by
  have hstored : exec (.storeRegs x) s = .next ((s.fill s.i.toNat (s.regsUpTo x)).advanceI x) :=
    execStoreRegs_ok (by change s.i.toNat + (x.val + 1) ≤ 4096; omega)
  rw [hstored] at hexec
  cases hexec
  have hreached : s.i.toNat ≤ s.ea k.val ∧ s.ea k.val < s.i.toNat + (s.regsUpTo x).length := by
    rw [State.regsUpTo_length, State.ea]; omega
  rw [State.advanceI_byteAt, State.fill_byteAt, dif_pos hreached, State.regsUpTo_get]
  congr 1
  exact Fin.ext (Nat.add_sub_cancel_left _ _)

/-! ## Placing a word -/

theorem State.fetchAddr_le (s : State) : s.fetchAddr.toNat ≤ 0xFFE := by
  unfold State.fetchAddr
  split
  · assumption
  · decide

theorem Phase.running_eq_batch (p : Phase) : ∃ left, p.running = .batch (left + 1) := by
  unfold Phase.running
  split
  · exact ⟨_, rfl⟩
  · exact ⟨0, rfl⟩

theorem State.withFetchWord_16 (s : State) (w : Word) : s.withFetchWord 16 w.toNat = s.placeWord w := by
  rw [State.withFetchWord, tableWord_16]

@[simp] theorem State.placeWord_pc (s : State) (w : Word) : (s.placeWord w).pc = s.fetchAddr := rfl

theorem State.placeWord_byteAt (s : State) (w : Word) (a : Nat) :
    (s.placeWord w).byteAt a =
      if s.fetchAddr.toNat + 1 = a then loByte w else if s.fetchAddr.toNat = a then hiByte w else s.byteAt a := by
  have hbytes : (s.placeWord w).byteAt a =
      ((s.setByte s.fetchAddr.toNat (hiByte w)).setByte (s.fetchAddr.toNat + 1) (loByte w)).byteAt a :=
    State.byteAt_congr rfl rfl a
  rw [hbytes, State.byteAt_setByte, State.byteAt_setByte]

/-- The next fetch of a machine with a word placed is that word (R48, log entry 7). -/
theorem State.placeWord_fetch16 (s : State) (w : Word) :
    (s.placeWord w).fetch16 (s.placeWord w).pc = .ok w := by
  have hlow : s.fetchAddr.toNat + 1 ≠ s.fetchAddr.toNat := Nat.succ_ne_self _
  rw [State.placeWord_pc, State.fetch16_ok s.fetchAddr_le, State.placeWord_byteAt, State.placeWord_byteAt,
    if_neg hlow, if_pos rfl, if_pos rfl, wordOfBytes_hiByte_loByte]

end Sys2Proof.Machine

namespace Sys2Proof.Proofs.MemoryRules

open Sys2Proof Sys2Proof.Machine

/-- Settles O11: the placed word is what the batch's next instruction step fetches. -/
theorem placedWordRunsNext : Obligations.PlacedWordRunsNext := by
  intro s w i hi
  rw [State.withFetchWord_16]
  obtain ⟨left, hphase⟩ := s.phase.running_eq_batch
  refine ⟨left, hphase, ?_, fun _ => rfl, rfl, rfl, fun a hfirst hsecond => ?_⟩
  · have hfetch : ((s.placeWord w).setPhase (.batch left)).fetch16 (s.placeWord w).pc = .ok w :=
      s.placeWord_fetch16 w
    rw [step_batch rfl hphase, runInstruction_of_fetch hfetch hi, State.setPhase_pc]
  · rw [State.placeWord_pc] at hfirst hsecond
    rw [State.placeWord_byteAt, if_neg (Ne.symm hsecond), if_neg (Ne.symm hfirst)]

/-- Settles O36: both fetched bytes are bytes FX55 stored. -/
theorem storesAreSeenByTheNextFetch : Obligations.StoresAreSeenByTheNextFetch := by
  intro x s t a k hfit hk ha hexec k' hk'
  have hfirst : t.byteAt a.toNat = s.getV k := by
    rw [ha]; exact execStoreRegs_byteAt hfit hexec (by omega)
  have hsecond : t.byteAt (a.toNat + 1) = s.getV k' := by
    have hnext : a.toNat + 1 = s.ea k'.val := by rw [ha, State.ea, State.ea, hk']; rfl
    rw [hnext]; exact execStoreRegs_byteAt hfit hexec (by omega)
  have hrange : a.toNat ≤ 0xFFE := by rw [ha, State.ea]; omega
  rw [State.fetch16_ok hrange, hfirst, hsecond]

/-- Settles O37: below `memSize` a byte write is `setByte`, whatever the address. -/
theorem everyByteIsWritable : Obligations.EveryByteIsWritable := by
  intro s a b ha
  have hin : a < memSize := Nat.lt_succ_of_le ha
  refine ⟨s.setByte a b, State.memWrite_ok hin b, ?_, keeps_setByte (beq_self_eq_true a) s b⟩
  rw [State.memRead_ok hin, State.byteAt_setByte, if_pos rfl]

/-- Settles O47: the changed address must be one the instruction's frame names. -/
theorem onlyStoresChangeMemory : Obligations.OnlyStoresChangeMemory := by
  intro i s t a _ hexec hrun hne
  have hwrites : (writes s i).mem a = true := by
    by_contra hw
    exact hne ((exec_keeps hexec hrun).mem a (Bool.eq_false_of_not_eq_true hw))
  cases i
  case storeBcd x =>
    obtain ⟨hlo, hhi⟩ := of_decide_eq_true hwrites
    exact ⟨⟨x, .inl rfl⟩, hlo, by omega⟩
  case storeRegs x =>
    obtain ⟨hlo, hhi⟩ := of_decide_eq_true hwrites
    exact ⟨⟨x, .inr rfl⟩, hlo, by omega⟩
  all_goals exact absurd hwrites Bool.false_ne_true

end Sys2Proof.Proofs.MemoryRules
end

section
/-! Encoding (spec/30_encoding.md): what a row of the opcode map (R63) says of a word it accepts, then the decode tree
of R62 once, leaf by leaf: an instruction it reads is encoded as the word, and a word it rejects is of no row. The
rules about the map are read off these. -/

namespace Sys2Proof

variable {r q : OpcodeRow} {w : Word}

/-! ## A word a row accepts (R63) -/

theorem OpcodeRow.accepts_iff : r.accepts w = true ↔ w &&& r.mask = r.value := beq_iff_eq

/-- A row accepts only words with its own value in each field that its mask holds whole. -/
theorem field_eq_of_accepts {start len : Nat} (hmask : r.mask.extractLsb' start len = BitVec.allOnes len)
    (h : r.accepts w = true) : r.value.extractLsb' start len = w.extractLsb' start len := by
  rw [← OpcodeRow.accepts_iff.mp h, BitVec.extractLsb'_and, hmask, BitVec.and_allOnes]

/-- Every row fixes the family. -/
theorem opField_of_accepts (hr : r ∈ opcodeRows) (h : r.accepts w = true) : opField r.value = opField w := by
  have hmask : ∀ r ∈ opcodeRows, opField r.mask = BitVec.allOnes 4 := by decide
  exact field_eq_of_accepts (hmask r hr) h

/-- Two rows that accept one word agree on the bits both masks hold. -/
theorem and_mask_eq_of_accepts (hr : r.accepts w = true) (hq : q.accepts w = true) :
    r.value &&& q.mask = q.value &&& r.mask := by
  rw [← OpcodeRow.accepts_iff.mp hr, ← OpcodeRow.accepts_iff.mp hq, BitVec.and_assoc, BitVec.and_assoc,
    BitVec.and_comm r.mask]

/-- Any two rows differ in a bit both their masks hold. -/
theorem opcodeRows_differ : ∀ j k : Fin 34,
    opcodeRows[j].value &&& opcodeRows[k].mask = opcodeRows[k].value &&& opcodeRows[j].mask → j = k := by
  decide

/-- A word has at most one row (R63). -/
theorem row_unique {j k : Fin 34} (hj : opcodeRows[j.val]? = some r) (hk : opcodeRows[k.val]? = some q)
    (hr : r.accepts w = true) (hq : q.accepts w = true) : j = k := by
  obtain ⟨_, rfl⟩ := List.getElem?_eq_some_iff.mp hj
  obtain ⟨_, rfl⟩ := List.getElem?_eq_some_iff.mp hk
  exact opcodeRows_differ j k (and_mask_eq_of_accepts hr hq)

/-! ## Words of no row (R64) -/

/-- No row of the opcode map accepts the word. -/
def NoRowAccepts (w : Word) : Prop := ∀ r ∈ opcodeRows, r.accepts w = false

/-- In a family whose rows are told apart by their low `len` bits (N, NN or the whole word), a word with none of
the rows' values there is of no row. -/
theorem noRowAccepts_of_family {op : Nibble} {len : Nat} {values : List Nat} (hop : (opField w).toNat = op.toNat)
    (hrows : ∀ r ∈ opcodeRows, opField r.value = op →
      r.mask.extractLsb' 0 len = BitVec.allOnes len ∧ (r.value.extractLsb' 0 len).toNat ∈ values)
    (hvalues : (w.extractLsb' 0 len).toNat ∉ values) : NoRowAccepts w := by
  intro r hr
  by_contra hacc
  have hacc : r.accepts w = true := Bool.eq_true_of_not_eq_false hacc
  obtain ⟨hmask, hmem⟩ := hrows r hr ((opField_of_accepts hr hacc).trans (BitVec.eq_of_toNat_eq hop))
  rw [field_eq_of_accepts hmask hacc] at hmem
  exact hvalues hmem

/-! ## The decode tree (R62) -/

theorem formatFA_fields {op : Nibble} (hop : (opField w).toNat = op.toNat) : formatFA op (nnnField w) = w := by
  rw [← BitVec.eq_of_toNat_eq hop]; exact (word_eq_formatFA w).symm

theorem formatFI_fields {op : Nibble} {nn : Byte} (hop : (opField w).toNat = op.toNat)
    (hnn : (nnField w).toNat = nn.toNat) : formatFI op (xField w) nn = w := by
  rw [← BitVec.eq_of_toNat_eq hop, ← BitVec.eq_of_toNat_eq hnn]; exact (word_eq_formatFI w).symm

theorem formatFR_fields {op n : Nibble} (hop : (opField w).toNat = op.toNat)
    (hn : (nField w).toNat = n.toNat) : formatFR op (xField w) (yField w) n = w := by
  rw [← BitVec.eq_of_toNat_eq hop, ← BitVec.eq_of_toNat_eq hn]; exact (word_eq_formatFR w).symm

/-- What the decoder may answer for a word: an instruction that is encoded as the word, or that the word is illegal,
when no row accepts it. -/
def AnswersWord (w : Word) : Except DecodeError Instr → Prop
  | .ok i => encode i = w
  | .error e => e = .illegalWord w ∧ NoRowAccepts w

/-- Family 8 is selected by N. -/
theorem decodeFamily8_answers (hop : (opField w).toNat = 8) : AnswersWord w (decodeFamily8 w) := by
  unfold decodeFamily8
  split
  case h_10 =>
    have hn : (nField w).toNat ∉ [0, 1, 2, 3, 4, 5, 6, 7, 0xE] := by simp_all
    exact ⟨rfl, noRowAccepts_of_family (op := 0x8) hop (by decide) hn⟩
  all_goals rename_i hn; exact formatFR_fields hop hn

/-- Family E is selected by NN. -/
theorem decodeFamilyE_answers (hop : (opField w).toNat = 0xE) : AnswersWord w (decodeFamilyE w) := by
  unfold decodeFamilyE
  split
  case h_3 =>
    have hnn : (nnField w).toNat ∉ [0x9E, 0xA1] := by simp_all
    exact ⟨rfl, noRowAccepts_of_family (op := 0xE) hop (by decide) hnn⟩
  all_goals rename_i hnn; exact formatFI_fields hop hnn

/-- Family F is selected by NN. -/
theorem decodeFamilyF_answers (hop : (opField w).toNat = 0xF) : AnswersWord w (decodeFamilyF w) := by
  unfold decodeFamilyF
  split
  case h_10 =>
    have hnn : (nnField w).toNat ∉ [0x07, 0x0A, 0x15, 0x18, 0x1E, 0x29, 0x33, 0x55, 0x65] := by simp_all
    exact ⟨rfl, noRowAccepts_of_family (op := 0xF) hop (by decide) hnn⟩
  all_goals rename_i hnn; exact formatFI_fields hop hnn

/-- Family 0 has the two words 00E0 and 00EE. -/
theorem noRowAccepts_family0 (hop : (opField w).toNat = 0) (hcls : w ≠ 0x00E0) (hret : w ≠ 0x00EE) :
    NoRowAccepts w := by
  have hw : (w.extractLsb' 0 16).toNat ∉ [0x00E0, 0x00EE] := by
    simpa [BitVec.extractLsb'_eq_self, ← BitVec.toNat_inj] using And.intro hcls hret
  exact noRowAccepts_of_family (op := 0x0) hop (by decide) hw

theorem nField_notMem_zero (hn : nField w ≠ 0) : (nField w).toNat ∉ [0] :=
  fun hmem => hn (BitVec.eq_of_toNat_eq (List.mem_singleton.mp hmem))

/-- Every branch of the decode tree answers for its word. -/
theorem decode_answers (w : Word) : AnswersWord w (decode w) := by
  unfold decode
  split
  case h_1 hop =>
    split_ifs with hcls hret
    · exact hcls.symm
    · exact hret.symm
    · exact ⟨rfl, noRowAccepts_family0 hop hcls hret⟩
  case h_6 hop =>
    split_ifs with hn
    · exact formatFR_fields hop (congrArg BitVec.toNat hn)
    · exact ⟨rfl, noRowAccepts_of_family (op := 0x5) hop (by decide) (nField_notMem_zero hn)⟩
  case h_10 hop =>
    split_ifs with hn
    · exact formatFR_fields hop (congrArg BitVec.toNat hn)
    · exact ⟨rfl, noRowAccepts_of_family (op := 0x9) hop (by decide) (nField_notMem_zero hn)⟩
  case h_9 hop => exact decodeFamily8_answers hop
  case h_15 hop => exact decodeFamilyE_answers hop
  case h_16 hop => exact decodeFamilyF_answers hop
  case h_2 hop | h_3 hop | h_11 hop | h_12 hop => exact formatFA_fields hop
  case h_4 hop | h_5 hop | h_7 hop | h_8 hop | h_13 hop => exact formatFI_fields hop rfl
  case h_14 hop => exact formatFR_fields hop rfl
  case h_17 =>
    -- a family is one of the sixteen above
    have hlt := (opField w).isLt
    simp only [imp_false] at *
    omega

/-- An instruction read from a word is encoded as that word. -/
theorem encode_of_decode {i : Instr} (h : decode w = .ok i) : encode i = w := by
  have := decode_answers w
  rwa [h] at this

/-- A word the decoder rejects is reported as illegal, and no row accepts it. -/
theorem illegal_of_decode_error {e : DecodeError} (h : decode w = .error e) :
    e = .illegalWord w ∧ NoRowAccepts w := by
  have := decode_answers w
  rwa [h] at this

section
open Laws.TableRow

/-- Every encoded instruction is a word of its own row (R63). -/
theorem encode_accepted : ∀ i : Instr, Statement i
  | .cls => cls | .ret => ret | .jp n => jp n | .call n => call n | .seImm x n => seImm x n
  | .sneImm x n => sneImm x n | .seReg x y => seReg x y | .ldImm x n => ldImm x n
  | .addImm x n => addImm x n | .ldReg x y => ldReg x y | .orReg x y => orReg x y
  | .andReg x y => andReg x y | .xorReg x y => xorReg x y | .addReg x y => addReg x y
  | .subReg x y => subReg x y | .shrReg x y => shrReg x y | .subnReg x y => subnReg x y
  | .shlReg x y => shlReg x y | .sneReg x y => sneReg x y | .ldI n => ldI n | .jpOff n => jpOff n
  | .rnd x n => rnd x n | .drw x y n => drw x y n | .skp x => skp x | .sknp x => sknp x
  | .readDt x => readDt x | .waitKey x => waitKey x | .setDt x => setDt x | .setSt x => setSt x
  | .addI x => addI x | .ldFont x => ldFont x | .storeBcd x => storeBcd x
  | .storeRegs x => storeRegs x | .loadRegs x => loadRegs x

end

/-- The row of the instruction read from a word accepts the word. -/
theorem row_accepts_of_decode {i : Instr} (h : decode w = .ok i) :
    ∃ r, opcodeRows[i.rowIndex]? = some r ∧ r.accepts w = true := by
  obtain ⟨r, hr, hacc⟩ := encode_accepted i
  exact ⟨r, hr, encode_of_decode h ▸ hacc⟩

/-- A word that a row accepts is an instruction. -/
theorem decode_ok_of_accepts (hr : r ∈ opcodeRows) (hacc : r.accepts w = true) : ∃ i, decode w = .ok i := by
  cases h : decode w with
  | ok i => exact ⟨i, rfl⟩
  | error e =>
    obtain ⟨-, hno⟩ := illegal_of_decode_error h
    exact absurd hacc (Bool.eq_false_iff.mp (hno r hr))

end Sys2Proof

namespace Sys2Proof.Machine

variable {s t : State}

/-! ## The fetch and decode faults of a step (R110, R116) -/

/-- A fetch whose second byte lies past 0xFFF faults with the first address outside (R48, D5). -/
theorem State.fetch16_fault {a : Word} (h : 0xFFE < a.toNat) :
    s.fetch16 a = .error (.addressOutOfRange (if 0xFFF < a.toNat then a.toNat else a.toNat + 1)) :=
  if_pos h

theorem runInstruction_of_fetch_fault {f : Fault} (hfetch : s.fetch16 s.pc = .error f) :
    runInstruction s = .next (s.enterFault ⟨f, none, s.pc⟩) := by
  rw [runInstruction, hfetch]

theorem runInstruction_of_decode_error {w : Word} {e : DecodeError} (hfetch : s.fetch16 s.pc = .ok w)
    (he : decode w = .error e) : runInstruction s = .next (s.enterFault ⟨.decodeError w, some w, s.pc⟩) := by
  rw [runInstruction, hfetch]
  simp only [he]

/-- A fault taken in the batch is a fault of the state before the instruction was counted off. -/
theorem FaultTaken.of_setPhase {r : FaultReport} {p : Phase} (h : FaultTaken r (s.setPhase p) t) : FaultTaken r s t :=
  ⟨h.status, h.cfg, h.fbOut, h.toneActive, h.phase⟩

end Sys2Proof.Machine

namespace Sys2Proof.Proofs.Encoding

open Sys2Proof Sys2Proof.Machine

/-- Settles O3: any two rows differ in a bit both their masks hold. -/
theorem noTwoOpcodeRowsMatchOneWord : Obligations.NoTwoOpcodeRowsMatchOneWord :=
  fun _ _ _ _ _ hj hk hr hq => row_unique hj hk hr hq

/-- Settles O4: a word's instruction is of a row that accepts the word, and a word has at most one row. -/
theorem decodeAgreesWithTheOpcodeMap : Obligations.DecodeAgreesWithTheOpcodeMap := by
  intro w k
  constructor
  · rintro ⟨r, hr, hacc⟩
    obtain ⟨i, hi⟩ := decode_ok_of_accepts (List.mem_of_getElem? hr) hacc
    obtain ⟨q, hq, hqacc⟩ := row_accepts_of_decode hi
    obtain ⟨hlt, -⟩ := List.getElem?_eq_some_iff.mp hq
    exact ⟨i, hi, congrArg Fin.val (row_unique (j := ⟨i.rowIndex, hlt⟩) hq hr hqacc hacc)⟩
  · rintro ⟨i, hi, hk⟩
    rw [← hk]
    exact row_accepts_of_decode hi

/-- Settles O5: the decoder rejects only words of no row, and a word it reads is of its instruction's row. -/
theorem wordsOfNoRowAreIllegal : Obligations.WordsOfNoRowAreIllegal := by
  intro w
  constructor
  · intro h
    exact (illegal_of_decode_error h).2
  · intro hno
    cases h : decode w with
    | ok i =>
      obtain ⟨r, hr, hacc⟩ := row_accepts_of_decode h
      exact absurd hacc (Bool.eq_false_iff.mp (hno r (List.mem_of_getElem? hr)))
    | error e => rw [(illegal_of_decode_error h).1]

/-- Settles O6: the decoder runs on each of the words. -/
theorem sampleWordsDecode : Obligations.SampleWordsDecode :=
  ⟨rfl, rfl, rfl, rfl, rfl, rfl, rfl, rfl, rfl⟩

/-- Settles O10: the cases of the fetch (R48), then of the decode (R61). -/
theorem stepRunsTheDecodedInstruction : Obligations.StepRunsTheDecodedInstruction := by
  rintro s left hrun hphase u rfl
  rw [step_batch hrun hphase]
  refine ⟨?_, fun hpc => ?_⟩
  · rintro hpc w rfl
    have hfetch : (s.setPhase (.batch left)).fetch16 s.pc =
        .ok (wordOfBytes (s.byteAt s.pc.toNat) (s.byteAt (s.pc.toNat + 1))) := State.fetch16_ok hpc
    exact ⟨fun i hi => runInstruction_of_fetch hfetch hi, fun e he =>
      ⟨_, runInstruction_of_decode_error hfetch he, (State.enterFault_taken _ _).of_setPhase⟩⟩
  · exact ⟨_, runInstruction_of_fetch_fault (State.fetch16_fault hpc), (State.enterFault_taken _ _).of_setPhase⟩

end Sys2Proof.Proofs.Encoding
end

section
/-! Control transfer (spec/40_control.md): jumps, calls, returns and skips. The outcomes of calls and returns are those
of `Laws/Exec.lean`; what is added is that the decoder reads back every encoded instruction, where BNNN lands, and what
a skip does. -/

namespace Sys2Proof

/-- Format by format, the decoder finds in an encoded word the family, the sub-opcode and the operands. -/
theorem decode_encode (i : Instr) : decode (encode i) = .ok i := by
  cases i
  case cls | ret => rfl
  case jp | call | ldI | jpOff => simp [encode, decode, fields_formatFA]
  case seImm | sneImm | ldImm | addImm | rnd => simp [encode, decode, fields_formatFI]
  case seReg | sneReg | drw => simp [encode, decode, fields_formatFR]
  case ldReg | orReg | andReg | xorReg | addReg | subReg | shrReg | subnReg | shlReg =>
    simp [encode, decode, decodeFamily8, fields_formatFR]
  case skp | sknp => simp [encode, decode, decodeFamilyE, fields_formatFI]
  case readDt | waitKey | setDt | setSt | addI | ldFont | storeBcd | storeRegs | loadRegs =>
    simp [encode, decode, decodeFamilyF, fields_formatFI]

end Sys2Proof

namespace Sys2Proof.Machine

variable {s t : State}

/-! ## Calls and returns (R73, R75) -/

/-- A call that finds room leaves the address after it on top of the caller's stack. -/
theorem execCall_stack {nnn : Addr12} (hroom : s.stack.length ≠ s.cfg.stackCapacity)
    (hcall : exec (.call nnn) s = .next t) : t.stack = s.stack ++ [s.pc] := by
  have hpushed : exec (.call nnn) s = .next ({ s with stack := s.stack ++ [s.pc] }.setPc (zext12 nnn)) :=
    execCall_ok nnn hroom
  rw [hpushed] at hcall
  cases hcall
  rfl

/-- Both a call and a return write the stack and then PC. -/
theorem keeps_setStack_setPc (s : State) (l : List Word) (a : Word) :
    Keeps { pc := true, stack := true } s ({ s with stack := l }.setPc a) :=
  (keeps_stack rfl s l).trans (keeps_setPc rfl _ a)

/-! ## The target of BNNN (R80) -/

/-- The unmasked sum fits PC, so it is exact (D24). -/
theorem jumpTarget_toNat (nnn : Addr12) (b : Byte) : (zext12 nnn + zext8 b).toNat = nnn.toNat + b.toNat := by
  have hbase := nnn.isLt
  have hoff := b.isLt
  rw [BitVec.toNat_add, zext12_toNat, zext8_toNat]
  omega

theorem State.jumpOffset_v0 (h : s.cfg.jumpVx = false) (nnn : Addr12) : s.jumpOffset nnn = s.getV 0 := by
  simp [State.jumpOffset, h]

theorem State.jumpOffset_vx (h : s.cfg.jumpVx = true) {nnn : Addr12} {x : Reg} (hx : x.val = nnn.toNat / 256) :
    s.jumpOffset nnn = s.getV x := by
  have hlt := nnn.isLt
  have hfield : (nnn.extractLsb' 8 4).toNat = x.val := by
    rw [BitVec.extractLsb'_toNat, Nat.shiftRight_eq_div_pow]
    omega
  rw [State.jumpOffset, if_pos h]
  exact congrArg s.getV (Fin.ext hfield)

/-! ## Skips (R76 to R79) -/

/-- A skip on a test adds 2 to PC exactly when the tested condition holds, and writes nothing else. -/
theorem State.skipIf_effect (s : State) {test : Bool} {P : Prop} [Decidable P] (h : test = true ↔ P) :
    (s.skipIf test).pc = (if P then s.pc + 2 else s.pc) ∧ Keeps { pc := true } s (s.skipIf test) :=
  ⟨(s.skipIf_pc test).trans (if_congr h rfl rfl), keeps_skipIf rfl s test⟩

end Sys2Proof.Machine

namespace Sys2Proof.Proofs.Control

open Sys2Proof Sys2Proof.Machine

/-- Settles O15: a call pushes or overflows as the stack has room or is full. -/
theorem callPushesAndJumps : Obligations.CallPushesAndJumps := by
  intro nnn s
  constructor
  · intro hroom
    exact ⟨_, execCall_ok nnn hroom, zext12_toNat nnn, rfl, keeps_setStack_setPc s _ _⟩
  · intro hfull
    exact ⟨_, execCall_fault nnn hfull, State.enterFault_taken s _⟩

/-- Settles O16: a return pops or underflows as the stack has an entry or is empty. -/
theorem returnPops : Obligations.ReturnPops := by
  intro s
  refine ⟨decode_encode .ret, ?_, ?_⟩
  · intro rest a htop
    exact ⟨_, execRet_ok htop, rfl, rfl, keeps_setStack_setPc s rest a⟩
  · intro hempty
    exact ⟨_, execRet_fault hempty, State.enterFault_taken s _⟩

/-- Settles O17: the return pops the entry the call pushed. -/
theorem returnComesBackAfterTheCall : Obligations.ReturnComesBackAfterTheCall := by
  intro nnn s t u hroom hcall hstack
  have htop : u.stack = s.stack ++ [s.pc] := hstack.trans (execCall_stack hroom hcall)
  exact ⟨_, execRet_ok htop, rfl, rfl⟩

/-- Settles O20: the offset register is the quirk's choice, and the sum is exact. -/
theorem jumpWithOffset : Obligations.JumpWithOffset := by
  intro nnn s
  have htarget := jumpTarget_toNat nnn (s.jumpOffset nnn)
  refine ⟨_, rfl, ?_, ?_, keeps_setPc rfl s _⟩
  · intro hquirk
    rw [State.setPc_pc, htarget, State.jumpOffset_v0 hquirk]
  · intro hquirk x hx
    rw [State.setPc_pc, htarget, State.jumpOffset_vx hquirk hx]

/-- Settles O14: the jump is one write of PC. -/
theorem jumpSetsPc : Obligations.JumpSetsPc :=
  fun nnn s => ⟨decode_encode (.jp nnn), _, rfl, zext12_toNat nnn, keeps_setPc rfl s _⟩

/-- Settles O18: 3XNN and 4XNN are skips on opposite tests of VX and NN. -/
theorem skipsOnImmediate : Obligations.SkipsOnImmediate :=
  fun x nn s => ⟨decode_encode (.seImm x nn), decode_encode (.sneImm x nn),
    ⟨_, rfl, s.skipIf_effect beq_iff_eq⟩, ⟨_, rfl, s.skipIf_effect bne_iff_ne⟩⟩

/-- Settles O19: 5XY0 and 9XY0 are skips on opposite tests of VX and VY. -/
theorem skipsOnRegister : Obligations.SkipsOnRegister :=
  fun _ _ s => ⟨⟨_, rfl, s.skipIf_effect beq_iff_eq⟩, ⟨_, rfl, s.skipIf_effect bne_iff_ne⟩⟩

end Sys2Proof.Proofs.Control
end

section
/-! Loads and arithmetic (spec/41_alu.md). Every instruction here ends in one of two writes: a register (`setV`), or a
register and then the flag (`setResult`, D8). What each write does is said once; what is left of an instruction is the
arithmetic of its result and of its flag. -/

namespace Sys2Proof.Machine

/-! ## The two writes -/

variable (s : State) (x : Reg)

theorem State.getV_setV_self (b : Byte) : (s.setV x b).getV x = b := by
  rw [State.getV_setV, if_pos rfl]

/-- A register write, and nothing else. -/
theorem State.setV_effect (b : Byte) : (s.setV x b).getV x = b ∧ Keeps { regs := [x] } s (s.setV x b) :=
  ⟨s.getV_setV_self x b, keeps_setV (List.mem_singleton_self x) s b⟩

/-- A register write of a byte known bit by bit. -/
theorem State.setV_bits {c : Byte} {bit : Nat → Bool} (h : ∀ b, c.getLsbD b = bit b) :
    Keeps { regs := [x] } s (s.setV x c) ∧ ∀ b, ((s.setV x c).getV x).getLsbD b = bit b := by
  obtain ⟨hval, hkeep⟩ := s.setV_effect x c
  exact ⟨hkeep, fun b => by rw [hval, h]⟩

/-- A result and then its flag: with X = F the flag is what VF holds (D8). -/
theorem State.setResult_effect {result : Byte} {flag : Bool} {n m : Nat} (hresult : result.toNat = n)
    (hflag : (if flag then 1 else 0) = m) :
    (x ≠ 15 → ((s.setResult x result flag).getV x).toNat = n) ∧
    ((s.setResult x result flag).getV 15).toNat = m ∧
    Keeps { regs := [x, 15] } s (s.setResult x result flag) := by
  refine ⟨fun hx => ?_, ?_, keeps_setResult (by simp) (by simp) s result flag⟩
  · rw [s.setResult_result hx, hresult]
  · rw [s.setResult_flag, hflag]

/-! ## Results and flags -/

/-- 8XY5 and 8XY7: the difference modulo 256 (R88, R90). -/
theorem byteSub_toNat (a b : Byte) : (a - b).toNat = (a.toNat + 256 - b.toNat) % 256 := by
  have hb := b.isLt
  rw [BitVec.toNat_sub]
  omega

/-- 8XY6 halves (R89). -/
theorem byteShiftRight_toNat (src : Byte) : (src >>> 1).toNat = src.toNat / 2 := by
  rw [BitVec.toNat_ushiftRight, Nat.shiftRight_eq_div_pow, Nat.pow_one]

/-- 8XYE doubles modulo 256 (R91). -/
theorem byteShiftLeft_toNat (src : Byte) : (src <<< 1).toNat = src.toNat * 2 % 256 := by
  rw [BitVec.toNat_shiftLeft, Nat.shiftLeft_eq, Nat.pow_one]

/-- The flag of a test that is a bit of a byte is that bit's digit. -/
theorem flag_getLsbD (src : Byte) (k : Nat) :
    (if src.getLsbD k then 1 else 0) = src.toNat / 2 ^ k % 2 := by
  rw [← Nat.toNat_testBit, ← BitVec.testBit_toNat]
  cases src.toNat.testBit k <;> rfl

theorem shiftedOutRight_flag (src : Byte) : (if shiftedOutRight src then 1 else 0) = src.toNat % 2 := by
  rw [shiftedOutRight, flag_getLsbD, Nat.pow_zero, Nat.div_one]

theorem shiftedOutLeft_flag (src : Byte) : (if shiftedOutLeft src then 1 else 0) = src.toNat / 128 := by
  have htop : src.toNat / 2 ^ 7 < 2 := Nat.div_lt_of_lt_mul src.isLt
  rw [shiftedOutLeft, flag_getLsbD]
  exact Nat.mod_eq_of_lt htop

theorem carry_flag (a b : Byte) : (if carry a b then 1 else 0) = if a.toNat + b.toNat > 255 then 1 else 0 :=
  if_congr decide_eq_true_iff rfl rfl

theorem notBorrow_flag (a b : Byte) : (if notBorrow a b then 1 else 0) = if a.toNat ≥ b.toNat then 1 else 0 :=
  if_congr decide_eq_true_iff rfl rfl

/-- The source of a shift under either setting of the quirk (R89, R91). -/
theorem State.shiftSource_toNat (y : Reg) :
    (s.shiftSource x y).toNat = if s.cfg.legacyShift then (s.getV y).toNat else (s.getV x).toNat :=
  apply_ite BitVec.toNat _ _ _

/-! ## The random source (R14) -/

theorem State.nextRandom_of_supplied {s : State} {r : Byte} {rest : List Byte} (h : s.rngBytes = r :: rest) :
    s.nextRandom = r := by
  rw [State.nextRandom, h]

end Sys2Proof.Machine

namespace Sys2Proof.Proofs.Alu

open Sys2Proof Sys2Proof.Machine

/-- Settles O23: each bit of the written byte is the operation on the operands' bits. -/
theorem bitwiseOperations : Obligations.BitwiseOperations :=
  fun x _ s => ⟨⟨_, rfl, s.setV_bits x fun _ => BitVec.getLsbD_or⟩,
    ⟨_, rfl, s.setV_bits x fun _ => BitVec.getLsbD_and⟩, ⟨_, rfl, s.setV_bits x fun _ => BitVec.getLsbD_xor⟩⟩

/-- Settles O24: the sum, then its carry. -/
theorem addSetsCarry : Obligations.AddSetsCarry :=
  fun x y s => ⟨_, rfl, s.setResult_effect x (BitVec.toNat_add _ _) (carry_flag (s.getV x) (s.getV y))⟩

/-- Settles O25: the difference in either order, then the not-borrow of that order. -/
theorem subtractionsSetNotBorrow : Obligations.SubtractionsSetNotBorrow :=
  fun x y s =>
    ⟨⟨_, rfl, s.setResult_effect x (byteSub_toNat _ _) (notBorrow_flag (s.getV x) (s.getV y))⟩,
      ⟨_, rfl, s.setResult_effect x (byteSub_toNat _ _) (notBorrow_flag (s.getV y) (s.getV x))⟩⟩

/-- Settles O26: the shifted source is the quirk's choice, the flag its lowest or its highest bit. -/
theorem shiftsMoveOneBitIntoTheFlag : Obligations.ShiftsMoveOneBitIntoTheFlag := by
  intro x y s src hsrc
  rw [← s.shiftSource_toNat x y] at hsrc
  subst hsrc
  exact ⟨⟨_, rfl, s.setResult_effect x (byteShiftRight_toNat _) (shiftedOutRight_flag _)⟩,
    ⟨_, rfl, s.setResult_effect x (byteShiftLeft_toNat _) (shiftedOutLeft_flag _)⟩⟩

/-- Settles O27: a draw, then the write of the masked byte. -/
theorem randomByteIsMasked : Obligations.RandomByteIsMasked := by
  intro x nn s
  refine ⟨⟨_, rfl, State.getV_setV_self _ x _, rfl, rfl, ?_⟩, fun _ _ => State.nextRandom_of_supplied⟩
  exact (keeps_afterDraw rfl s).trans (keeps_setV (List.mem_singleton_self x) s.afterDraw _)

/-- Settles O21: both write VX alone, 7XNN with the wrapping sum. -/
theorem loadAndAddImmediate : Obligations.LoadAndAddImmediate := by
  intro x nn s
  obtain ⟨hsum, hkeep⟩ := s.setV_effect x (s.getV x + nn)
  refine ⟨decode_encode (.ldImm x nn), decode_encode (.addImm x nn), ⟨_, rfl, s.setV_effect x nn⟩,
    ⟨_, rfl, ?_, hkeep⟩⟩
  rw [hsum, BitVec.toNat_add]

/-- Settles O22: the write of VX is of VY's byte. -/
theorem assignCopies : Obligations.AssignCopies :=
  fun x y s => ⟨decode_encode (.ldReg x y), _, rfl, s.setV_effect x (s.getV y)⟩

end Sys2Proof.Proofs.Alu
end

section
/-! The index register and the memory instructions (spec/42_index_memory.md). A new value of I, and a byte or a
register after a bulk store or load, is said once as a number; the bound I + X ≤ 0xFFF (D5) makes each access fit. -/

namespace Sys2Proof.Machine

variable {s : State} {x : Reg}

/-! ## New values of I (R94, R95, R97, R98) -/

/-- FX1E keeps 12 bits of the sum, which fit I (R94). -/
theorem indexSum_toNat (n : Nat) : (BitVec.ofNat 16 (n % 0x1000)).toNat = n % 0x1000 := by
  rw [BitVec.toNat_ofNat]; omega

theorem indexOverflow_flag (i : Word) (b : Byte) :
    (if indexOverflow i b then 1 else 0) = if i.toNat + b.toNat > 0xFFF then 1 else 0 :=
  if_congr decide_eq_true_iff rfl rfl

theorem State.setFlag_flag (s : State) (flag : Bool) : ((s.setFlag flag).getV 15).toNat = if flag then 1 else 0 := by
  rw [State.getV_setFlag, if_pos rfl]
  cases flag <;> rfl

/-- The glyph's address fits I for every font base, so it is exact (R95). -/
theorem State.glyphAddr_toNat (s : State) (b : Byte) :
    (s.glyphAddr b).toNat = s.cfg.fontBase.toNat + 5 * (b.toNat % 16) := by
  have hbase := s.cfg.fontBase.isLt
  have hoffset : 5 * (b.toNat % 16) ≤ 75 := by omega
  rw [State.glyphAddr, BitVec.toNat_add, zext12_toNat, BitVec.toNat_ofNat]
  generalize 5 * (b.toNat % 16) = offset at hoffset ⊢
  omega

/-- Where I + X lies in memory the advance under the quirk does not wrap (D13). -/
theorem State.advanceI_toNat (h : s.i.toNat + x.val ≤ 0xFFF) :
    (s.advanceI x).i.toNat = if s.cfg.indexAdvance then s.i.toNat + x.val + 1 else s.i.toNat := by
  rw [State.advanceI_i]
  split
  · rw [BitVec.toNat_add, BitVec.toNat_ofNat]; omega
  · rfl

/-! ## Accesses that fit (R11, D5) -/

theorem regs_fit (h : s.i.toNat + x.val ≤ 0xFFF) : s.i.toNat + (x.val + 1) ≤ memSize :=
  Nat.succ_le_succ h

theorem State.fill_byteAt_add (s : State) (a : Nat) {bs : List Byte} {k : Nat} (h : k < bs.length) :
    (s.fill a bs).byteAt (a + k) = bs[k] := by
  have hreached : a ≤ a + k ∧ a + k < a + bs.length := by omega
  rw [State.fill_byteAt, dif_pos hreached]
  simp only [Nat.add_sub_cancel_left]

/-- The three stored bytes are the decimal digits of VX as numbers (R96). -/
theorem bcdDigits_toNat (b : Byte) :
    (bcdDigits b).map BitVec.toNat = [b.toNat / 100, b.toNat / 10 % 10, b.toNat % 10] := by
  have hb := b.isLt
  simp only [bcdDigits, List.map_cons, List.map_nil, BitVec.toNat_ofNat, List.cons.injEq, and_true]
  omega

/-- FX33 and FX55 store at I and on: the frame names the bytes from I to the last one stored. -/
theorem keeps_fill_index (s : State) {w : Writes} {bs : List Byte} {n : Nat} (hlen : bs.length = n + 1)
    (hmem : w.mem = fun a => decide (s.ea 0 ≤ a ∧ a ≤ s.ea n)) : Keeps w s (s.fill s.i.toNat bs) := by
  refine keeps_fill (fun k hk => ?_) s
  rw [hlen] at hk
  rw [hmem]
  exact decide_eq_true ⟨Nat.le_add_right _ k, Nat.add_le_add_left (Nat.le_of_lt_succ hk) _⟩

/-- FX65 writes V0 to VX, and then I. -/
theorem keeps_loadRegs_advanceI (s : State) {x : Reg} {bs : List Byte} (h : bs.length = x.val + 1) :
    Keeps { regs := (List.finRange 16).filter fun k => decide (k.val ≤ x.val), index := true } s
      ((s.loadRegs bs).advanceI x) := by
  refine (keeps_loadRegs (fun q hq => ?_) s).trans (keeps_advanceI rfl _ x)
  have hreached : q.val ≤ x.val := by omega
  exact List.mem_filter.mpr ⟨List.mem_finRange q, decide_eq_true hreached⟩

end Sys2Proof.Machine

namespace Sys2Proof.Proofs.IndexMemory

open Sys2Proof Sys2Proof.Machine

/-- Settles O29: the addend is read before the flag is written, so X = F needs no case of its own (D8). -/
theorem addIndexWrapsWithFlag : Obligations.AddIndexWrapsWithFlag := by
  intro x s
  refine ⟨_, rfl, indexSum_toNat _, ?_, ?_⟩
  · rw [State.setFlag_flag, indexOverflow_flag]
  · exact (keeps_setI rfl s _).trans (keeps_setFlag (List.mem_singleton_self _) _ _)

/-- Settles O30: the sum of base and offset is exact. -/
theorem fontAddress : Obligations.FontAddress :=
  fun x s => ⟨decode_encode (.ldFont x), _, rfl, s.glyphAddr_toNat (s.getV x), keeps_setI rfl s _⟩

/-- Settles O31: the byte at I + k is the k-th digit. -/
theorem bcdStoresThreeDigits : Obligations.BcdStoresThreeDigits := by
  intro x s hfit
  have hdigit : ∀ k (hk : k < (bcdDigits (s.getV x)).length),
      ((s.fill s.i.toNat (bcdDigits (s.getV x))).byteAt (s.ea k)).toNat =
        ((bcdDigits (s.getV x)).map BitVec.toNat)[k]'(by rwa [List.length_map]) := by
    intro k hk
    rw [State.ea, State.fill_byteAt_add s _ hk, List.getElem_map]
  simp only [bcdDigits_toNat, bcdDigits_length] at hdigit
  exact ⟨_, execStoreBcd_ok x (Nat.succ_le_succ hfit), hdigit 0 (by decide), hdigit 1 (by decide),
    hdigit 2 (by decide), keeps_fill_index s (bcdDigits_length _) rfl⟩

/-- Settles O32: the bytes are those of `execStoreRegs_byteAt`, and the store leaves I and the quirk to the advance. -/
theorem storeRegistersAtIndex : Obligations.StoreRegistersAtIndex := by
  intro x s hfit
  have hexec : exec (.storeRegs x) s = .next ((s.fill s.i.toNat (s.regsUpTo x)).advanceI x) :=
    execStoreRegs_ok (regs_fit hfit)
  refine ⟨_, hexec, fun k hk => execStoreRegs_byteAt hfit hexec hk, ?_,
    (keeps_fill_index s (s.regsUpTo_length x) rfl).trans (keeps_advanceI rfl _ x)⟩
  rw [State.fill_mem_only]
  exact State.advanceI_toNat hfit

/-- Settles O33: the loaded list is the bytes from I to I + X. -/
theorem loadRegistersFromIndex : Obligations.LoadRegistersFromIndex := by
  intro x s hfit
  refine ⟨_, execLoadRegs_ok (regs_fit hfit), fun k => ?_, State.advanceI_toNat hfit,
    keeps_loadRegs_advanceI s (by rw [List.length_map, List.length_range'])⟩
  rw [State.getV_congr (State.advanceI_v _ x), getV_loadRegs_range, State.ea]

/-- Settles O34: the load reads the bytes the store left. That I is the same makes the quirk's setting irrelevant. -/
theorem storedRegistersLoadBack : Obligations.StoredRegistersLoadBack := by
  intro x s t u _ hfit hstore hi hmem hcfg
  obtain ⟨w, hload, hregs, -⟩ := loadRegistersFromIndex x u (by rw [hi]; exact hfit)
  refine ⟨w, hload, fun k hk => ?_⟩
  calc w.getV k
    _ = u.byteAt (u.ea k.val) := by rw [hregs k, if_pos hk]
    _ = t.byteAt (s.ea k.val) := by rw [State.byteAt_congr hcfg hmem, State.ea, State.ea, hi]
    _ = s.getV k := execStoreRegs_byteAt hfit hstore hk

/-- Settles O28: the load is one write of I. -/
theorem loadIndex : Obligations.LoadIndex :=
  fun nnn s => ⟨decode_encode (.ldI nnn), _, rfl, zext12_toNat nnn, keeps_setI rfl s _⟩

end Sys2Proof.Proofs.IndexMemory
end

section
/-! The framebuffer (spec/43_display.md): the clear, the draw, a second draw of the same sprite, and the frame of all
other instructions. What a draw does to each pixel and to VF is settled once (O39); two draws in a row compose it. -/

namespace Sys2Proof.Machine

variable {s t : State} {x y : Reg} {n : Nibble}

/-- A sprite whose last byte lies in memory is read without a fault, and one of height 0 reads nothing (D5, D14). -/
theorem sprite_fits (h : n.toNat ≠ 0 → s.i.toNat + n.toNat - 1 ≤ 0xFFF) :
    n.toNat = 0 ∨ s.i.toNat + n.toNat ≤ memSize := by
  rw [memSize]; omega

/-- A sprite has at most 15 rows, fewer than the screen, so no two of them land on one row (R60, R100). -/
theorem spriteRows_length_le (s : State) (n : Nibble) :
    ((List.range' s.i.toNat n.toNat).map s.byteAt).length ≤ 32 := by
  have hn := n.isLt
  rw [List.length_map, List.length_range']
  omega

/-- A draw leaves what places its sprite as it was, where neither coordinate is in VF, which it writes. -/
theorem Keeps.spriteCovers_iff (h : Keeps { regs := [15], fb := true } s t) (hx : x ≠ 15) (hy : y ≠ 15) (p : Place) :
    SpriteCovers t x y n p ↔ SpriteCovers s x y n p := by
  have hvx : t.getV x = s.getV x := h.regs x (by simpa using hx)
  have hvy : t.getV y = s.getV y := h.regs y (by simpa using hy)
  have hi : t.i = s.i := h.index rfl
  have hmem : t.byteAt = s.byteAt := funext fun a => h.mem a rfl
  rw [SpriteCovers, SpriteCovers, hvx, hvy, hi, hmem, h.cfg]

end Sys2Proof.Machine

namespace Sys2Proof.Proofs.Display

open Sys2Proof Sys2Proof.Machine

/-- Settles O39: the places the draw toggles are the covered ones, each once, so the laws of a whole draw apply. -/
theorem drawTogglesTheSpritePixels : Obligations.DrawTogglesTheSpritePixels := by
  intro x y n s hfit
  have hcovers := mem_drawTargets_iff_covers s x y n
  have hpixel := s.drawRows_pixel x y (spriteRows_length_le s n)
  have hflag := s.drawRows_flag x y (spriteRows_length_le s n)
  refine ⟨_, execDrw_ok x y (sprite_fits hfit), fun p hp => ?_, fun p hp => ?_, ?_, fun hclear => ?_,
    keeps_drawRows (List.mem_singleton_self _) rfl s x y _⟩
  · rw [hpixel, if_pos ((hcovers p).mpr hp)]
  · rw [hpixel, if_neg (mt (hcovers p).mp hp)]
  · rintro ⟨p, hp, hset⟩
    exact hflag.trans (if_pos (List.any_eq_true.mpr ⟨p, (hcovers p).mpr hp, hset⟩))
  · refine hflag.trans (if_neg ?_)
    rw [List.any_eq_true]
    rintro ⟨p, hp, hset⟩
    exact Bool.false_ne_true ((hclear p ((hcovers p).mp hp)).symm.trans hset)

/-- Two draws in a row: both cover the same pixels, which the first turns over and the second turns back. The second
meets the covered pixels turned over, so its flag says whether one of them was clear at the start (R101). -/
theorem secondDraw_effect {x y : Reg} {n : Nibble} {s t : State} (hx : x ≠ 15) (hy : y ≠ 15)
    (hfit : n.toNat ≠ 0 → s.i.toNat + n.toNat - 1 ≤ 0xFFF) (hexec : exec (.drw x y n) s = .next t) :
    ∃ u, exec (.drw x y n) t = .next u ∧ u.fb = s.fb ∧
      ((∃ p, SpriteCovers s x y n p ∧ s.pixel p = false) → u.getV 15 = 1) ∧
      ((∀ p, SpriteCovers s x y n p → s.pixel p = true) → u.getV 15 = 0) := by
  obtain ⟨t', hfirst, htoggled, hkept, -, -, hframe⟩ := drawTogglesTheSpritePixels x y n s hfit
  rw [hexec] at hfirst
  cases hfirst
  have hcovers := hframe.spriteCovers_iff (n := n) hx hy
  obtain ⟨u, hsecond, htoggled', hkept', hhit, hmiss, -⟩ :=
    drawTogglesTheSpritePixels x y n t (by rwa [hframe.index rfl])
  simp only [hcovers] at htoggled' hkept' hhit hmiss
  refine ⟨u, hsecond, Framebuffer.ext_pixel fun p => ?_, ?_, fun hset => hmiss fun p hp => ?_⟩
  · change u.pixel p = s.pixel p
    by_cases hp : SpriteCovers s x y n p
    · rw [htoggled' p hp, htoggled p hp, Bool.not_not]
    · rw [hkept' p hp, hkept p hp]
  · rintro ⟨p, hp, hclear⟩
    exact hhit ⟨p, hp, by rw [htoggled p hp, hclear, Bool.not_false]⟩
  · rw [htoggled p hp, hset p hp, Bool.not_true]

/-- Settles O40, by the effect of the second of two draws. -/
theorem drawingTwiceRestores : Obligations.DrawingTwiceRestores := by
  intro x y n s t hx hy hfit hexec
  obtain ⟨u, hsecond, hfb, hhit, -⟩ := secondDraw_effect hx hy hfit hexec
  exact ⟨u, hsecond, hfb, hhit⟩

/-- A machine whose screen is all set and whose I is at the default font's first byte, 0xF0. -/
def allSet : State := (State.reset.setI 0x050).setFb (Vector.replicate 32 (Vector.replicate 64 true))

theorem allSet_pixel (p : Place) : allSet.pixel p = true := by
  simp [allSet, State.pixel, Framebuffer.pixel]

/-- One row of the glyph at I, drawn at (0, 0), covers the pixel there. -/
theorem allSet_covers : SpriteCovers allSet 0 1 1 (0, 0) :=
  ⟨0, 0, by decide, by decide, by decide, by unfold LandsAt; decide⟩

/-- Refutes O41: on a screen all set, the first draw of `allSet` clears what it covers and the second meets none set. -/
theorem not_secondDrawAlwaysCollides : ¬ Obligations.SecondDrawAlwaysCollides := by
  intro hcollides
  have hfit : (1 : Nibble).toNat ≠ 0 → allSet.i.toNat + (1 : Nibble).toNat - 1 ≤ 0xFFF := by decide
  obtain ⟨t, hfirst⟩ := exec_next (.drw 0 1 1) allSet
  obtain ⟨u, hsecond, hone⟩ := hcollides 0 1 1 allSet t (by decide) (by decide) hfit hfirst ⟨(0, 0), allSet_covers⟩
  obtain ⟨u', hsecond', -, -, hmiss⟩ := secondDraw_effect (by decide) (by decide) hfit hfirst
  rw [hsecond] at hsecond'
  cases hsecond'
  have hzero : u.getV 15 = 0 := hmiss fun p _ => allSet_pixel p
  exact absurd (hzero.symm.trans hone) (by decide)

/-- Settles O46: the frames of all other instructions keep the framebuffer. -/
theorem onlyClearAndDrawChangePixels : Obligations.OnlyClearAndDrawChangePixels := by
  intro i s t _ hexec hrun hne
  have hkeep := (exec_keeps hexec hrun).fb
  cases i
  case cls => exact .inl rfl
  case drw x y n => exact .inr ⟨x, y, n, rfl⟩
  all_goals exact absurd (hkeep rfl) hne

/-- Settles O38: the clear is one write of the framebuffer. -/
theorem clearScreen : Obligations.ClearScreen :=
  fun s => ⟨decode_encode .cls, _, rfl, Framebuffer.pixel_clear, keeps_setFb rfl s _⟩

end Sys2Proof.Proofs.Display
end

section
/-! The key and timer instructions (spec/44_timers_input.md). FX0A stores a key chosen from the snapshot; that the choice
is free (D11) is shown by a configuration that lists one choice for one snapshot. -/

namespace Sys2Proof.Machine

/-! ## The choice of a pressed key (R5, R106) -/

/-- A pressed key that the configuration lists for a snapshot is the key chosen from it. -/
theorem keySelect_of_listed {cfg : Config} {keys : BitVec 16} {k : Key} (hpressed : keys.getLsbD k.val = true)
    (hlisted : cfg.keySelect.lookup keys = some k) : keySelect cfg keys = some k := by
  have hmem : k ∈ pressedKeys keys := mem_pressedKeys.mpr hpressed
  unfold keySelect
  split
  · next hnone => simp [hnone] at hmem
  · next hone =>
    rw [hone] at hmem
    rw [List.mem_singleton.mp hmem]
  · simp [hlisted, hpressed]

/-- The configuration that chooses `k` from the snapshot `keys`, and is as it was elsewhere. -/
def choosing (cfg : Config) (keys : BitVec 16) (k : Key) : Config := { cfg with keySelect := [(keys, k)] }

theorem choosing_wellFormed {cfg : Config} {keys : BitVec 16} {k : Key} (hcfg : cfg.wellFormed = true)
    (hpressed : keys.getLsbD k.val = true) : (choosing cfg keys k).wellFormed = true := by
  have hlegal : (choosing cfg keys k).keySelectLegal = true := by
    simp [choosing, Config.keySelectLegal, hpressed]
  simp only [Config.wellFormed, Bool.and_eq_true] at hcfg ⊢
  obtain ⟨hrest, -⟩ := hcfg
  exact ⟨hrest, hlegal⟩

theorem choosing_keySelect {keys : BitVec 16} {k : Key} (cfg : Config) (hpressed : keys.getLsbD k.val = true) :
    keySelect (choosing cfg keys k) keys = some k :=
  keySelect_of_listed hpressed List.lookup_cons_self

/-- The byte FX0A stores is the key's number. -/
theorem keyByte_toNat (k : Key) : (BitVec.ofNat 8 k.val).toNat = k.val :=
  Nat.mod_eq_of_lt (by omega)

/-! ## Skips on a key (R104, R105) -/

/-- A skip on the negated test leaves PC alone exactly when the test holds. -/
theorem State.skipIf_not_effect (s : State) (test : Bool) :
    (s.skipIf (!test)).pc = (if test = true then s.pc else s.pc + 2) ∧ Keeps { pc := true } s (s.skipIf (!test)) := by
  obtain ⟨hpc, hkeep⟩ := s.skipIf_effect (test := !test) (P := ¬ test = true) (by simp)
  exact ⟨hpc.trans (ite_not ..), hkeep⟩

end Sys2Proof.Machine

namespace Sys2Proof.Proofs.TimersInput

open Sys2Proof Sys2Proof.Machine

/-- Settles O42: a key number is skipped on by opposite tests of the snapshot, a larger value faults. -/
theorem skipsOnKey : Obligations.SkipsOnKey := by
  intro x s
  constructor
  · intro k hk
    exact ⟨⟨_, execSkp_ok hk, s.skipIf_effect Iff.rfl⟩, ⟨_, execSknp_ok hk, s.skipIf_not_effect (s.keyDown k)⟩⟩
  · intro hlarge
    have hno : ¬ (s.getV x).toNat < 16 := Nat.not_lt.mpr hlarge
    exact ⟨⟨_, execSkp_fault hno, s.enterFault_taken _⟩, ⟨_, execSknp_fault hno, s.enterFault_taken _⟩⟩

/-- Settles O43: with no key pressed the one write is of PC, else it is of VX, and its byte is a pressed key's number. -/
theorem waitForKey : Obligations.WaitForKey := by
  intro x s
  constructor
  · intro hnone
    exact ⟨_, execWaitKey_none x hnone, rfl, keeps_setPc rfl s _⟩
  · intro hsome
    obtain ⟨k, hdown, hexec⟩ := execWaitKey_some x hsome
    obtain ⟨hval, hkeep⟩ := s.setV_effect x (BitVec.ofNat 8 k.val)
    exact ⟨_, hexec, ⟨k, hdown, by rw [hval, keyByte_toNat]⟩, hkeep⟩

/-- Settles O44: the configuration that lists the key for the snapshot chooses it. -/
theorem anyPressedKeyIsAdmitted : Obligations.AnyPressedKeyIsAdmitted :=
  fun cfg keys k hcfg hpressed =>
    ⟨choosing cfg keys k, choosing_wellFormed hcfg hpressed, choosing_keySelect cfg hpressed⟩

/-- Settles O45: each is one write, of VX, of DT or of ST. -/
theorem timerInstructions : Obligations.TimerInstructions :=
  fun x s => ⟨⟨_, rfl, s.setV_effect x s.dt⟩, ⟨_, rfl, rfl, keeps_setDt rfl s _⟩, ⟨_, rfl, rfl, keeps_setSt rfl s _⟩⟩

end Sys2Proof.Proofs.TimersInput
end

section
/-! Exceptions, timers and publication (spec/60_exceptions.md): accesses past the end of memory, and what writes the
timers and the published outputs. An instruction's outputs are settled from its cases (`exec_cases`), a fault among them;
n ticks are settled from one, since a tick acts on each timer alone. -/

namespace Sys2Proof.Machine

variable {s t : State} {i : Instr}

/-! ## Accesses past the end (R111) -/

/-- An access whose last byte lies above 0xFFF ends outside memory. -/
theorem memSize_lt_of_last {a : Nat} (h : 0xFFF < a) : memSize < a + 1 := Nat.succ_lt_succ h

/-! ## The instructions whose frame names a timer (R125) -/

theorem setDt_of_writes_dt (h : (writes s i).dt = true) : ∃ x, i = .setDt x := by
  cases i
  case setDt x => exact ⟨x, rfl⟩
  all_goals exact absurd h Bool.false_ne_true

theorem setSt_of_writes_st (h : (writes s i).st = true) : ∃ x, i = .setSt x := by
  cases i
  case setSt x => exact ⟨x, rfl⟩
  all_goals exact absurd h Bool.false_ne_true

/-! ## The published outputs (R126, R127, R141) -/

/-- An instruction keeps the outputs, whether or not it takes a fault. -/
theorem exec_outputs (h : exec i s = .next t) : t.fbOut = s.fbOut ∧ t.toneActive = s.toneActive := by
  rcases exec_cases h with k | ⟨r, rfl | rfl⟩
  · exact k.outputs
  · exact ⟨rfl, rfl⟩
  · exact ⟨rfl, rfl⟩

/-- An instruction step keeps the outputs, also when its fetch or its decoding faults. -/
theorem runInstruction_outputs (h : runInstruction s = .next t) :
    t.fbOut = s.fbOut ∧ t.toneActive = s.toneActive := by
  rcases runInstruction_cases h with ⟨r, rfl⟩ | ⟨w, i, -, -, hexec⟩
  · exact ⟨rfl, rfl⟩
  · have k := exec_outputs hexec
    rwa [State.setPc_fbOut, State.setPc_toneActive] at k

theorem State.beginFrame_outputs (s : State) (inp : FrameInput) :
    (s.beginFrame inp).fbOut = s.fbOut ∧ (s.beginFrame inp).toneActive = s.toneActive := by
  unfold State.beginFrame; split <;> exact ⟨rfl, rfl⟩

/-- The step after the last instruction of a batch is the publication (R139). -/
theorem step_batchEnd (hrun : s.status = .running) (hphase : s.phase = .batch 0) : step s = .next s.publish := by
  unfold step frameStep; rw [hrun, hphase]

/-! ## Ticks in a row (R124) -/

theorem tickByte_iterate_toNat (n : Nat) (b : Byte) : (tickByte^[n] b).toNat = b.toNat - n := by
  induction n with
  | zero => rfl
  | succ n ih => rw [Function.iterate_succ_apply', tickByte_toNat, ih, Nat.sub_sub]

theorem State.tick_iterate_dt (n : Nat) (s : State) : (State.tick^[n] s).dt = tickByte^[n] s.dt :=
  (show Function.Semiconj State.dt State.tick tickByte from State.tick_dt).iterate_right n s

theorem State.tick_iterate_st (n : Nat) (s : State) : (State.tick^[n] s).st = tickByte^[n] s.st :=
  (show Function.Semiconj State.st State.tick tickByte from State.tick_st).iterate_right n s

/-- A frame of one update is the frame of any number of it. -/
theorem Keeps.iterate {w : Writes} {f : State → State} (h : ∀ s, Keeps w s (f s)) (n : Nat) (s : State) :
    Keeps w s (f^[n] s) := by
  induction n with
  | zero => exact Keeps.refl w s
  | succ n ih =>
    rw [Function.iterate_succ_apply']
    exact ih.trans (h _)

end Sys2Proof.Machine

namespace Sys2Proof.Proofs.Exceptions

open Sys2Proof Sys2Proof.Machine

/-- Settles O35: an access whose last byte is outside takes the fault, and the fault entry of a draw keeps the pixels (D15). -/
theorem accessesPastTheEndFault : Obligations.AccessesPastTheEndFault := by
  intro s x y n
  refine ⟨fun h => ?_, fun h => ?_, fun h => ?_, fun hrows h => ?_⟩
  · exact ⟨_, execStoreBcd_fault x (memSize_lt_of_last h), s.enterFault_taken _⟩
  · exact ⟨_, execStoreRegs_fault (memSize_lt_of_last h), s.enterFault_taken _⟩
  · exact ⟨_, execLoadRegs_fault (memSize_lt_of_last h), s.enterFault_taken _⟩
  · have hpast : memSize < s.i.toNat + n.toNat := by have := memSize_lt_of_last h; omega
    exact ⟨_, execDrw_fault x y (Nat.one_le_iff_ne_zero.mp hrows) hpast, rfl, s.enterDrawFault_taken _⟩

/-- Settles O49: the frame of an instruction that takes no fault names a timer only for FX15 and FX18. -/
theorem instructionsLeaveTheDevices : Obligations.InstructionsLeaveTheDevices := by
  intro i s t _ hexec hrun
  have k := exec_keeps hexec hrun
  refine ⟨fun hne => ?_, fun hne => ?_, k.keys, k.cfg, k.outputs⟩
  · exact setDt_of_writes_dt (Bool.eq_true_of_not_eq_false (mt k.dt hne))
  · exact setSt_of_writes_st (Bool.eq_true_of_not_eq_false (mt k.st hne))

/-- Settles O52: of the cases of a step, all but the publication keep both outputs. -/
theorem outputsChangeOnlyAtPublication : Obligations.OutputsChangeOnlyAtPublication := by
  intro s t hstep hne
  have hchanged : ¬ (t.fbOut = s.fbOut ∧ t.toneActive = s.toneActive) := not_and_or.mpr hne
  rcases step_cases hstep with ⟨-, -, rfl⟩ | ⟨hrun, hphase, -⟩ | ⟨left, -, -, hinstr⟩ | ⟨-, rfl⟩
  · exact absurd (State.beginFrame_outputs s.afterInput s.frameInput) hchanged
  · exact ⟨hrun, hphase⟩
  · exact absurd (runInstruction_outputs hinstr) hchanged
  · exact absurd ⟨rfl, rfl⟩ hchanged

/-- Settles O54: each timer is ticked n times on its own, and one tick's frame is the frame of n. -/
theorem ticksCountDownToZero : Obligations.TicksCountDownToZero := by
  intro n s
  rw [State.tick_iterate_dt, State.tick_iterate_st]
  exact ⟨tickByte_iterate_toNat n s.dt, tickByte_iterate_toNat n s.st, Keeps.iterate (keeps_tick rfl rfl) n s⟩

/-- Settles O55: the step is the publication, which writes the outputs and the phase. -/
theorem batchEndPublishes : Obligations.BatchEndPublishes := by
  intro s hrun hphase
  have htone : s.publish.toneActive = true ↔ s.st ≠ 0 := bne_iff_ne
  exact ⟨s.publish, step_batchEnd hrun hphase, rfl, htone, rfl, rfl, rfl, rfl, rfl, rfl, rfl, rfl, rfl, rfl, hrun, rfl⟩

end Sys2Proof.Proofs.Exceptions
end

section
/-! Construction and load (spec/70_reset_and_hazards.md section 1). A constructed machine lists no byte, so each address
reads as the construction contents; a loaded one is read through `State.loaded_byteAt`. -/

namespace Sys2Proof.Machine

/-! ## The constructed machine (R133, R134) -/

/-- Nothing has been written yet: memory is the construction contents. -/
theorem construct_byteAt (cfg : Config) (a : Nat) : (State.construct cfg).byteAt a = unlistedByte cfg a := rfl

theorem unlistedByte_font (cfg : Config) (j : Fin 80) :
    unlistedByte cfg (cfg.fontBase.toNat + j.val) = cfg.fontData[j.val] := by
  have hfont : cfg.fontBase.toNat ≤ cfg.fontBase.toNat + j.val ∧
      cfg.fontBase.toNat + j.val < cfg.fontBase.toNat + 80 := by omega
  rw [unlistedByte, dif_pos hfont]
  simp only [Nat.add_sub_cancel_left]

theorem unlistedByte_outside {cfg : Config} {a : Nat}
    (h : a < cfg.fontBase.toNat ∨ cfg.fontBase.toNat + 80 ≤ a) : unlistedByte cfg a = 0 :=
  dif_neg (by omega)

theorem construct_getV (cfg : Config) (r : Reg) : (State.construct cfg).getV r = 0 :=
  Vector.getElem_replicate r.isLt

theorem construct_pixel (cfg : Config) (p : Place) : (State.construct cfg).pixel p = false :=
  Framebuffer.pixel_clear p

theorem construct_keyDown (cfg : Config) (k : Key) : (State.construct cfg).keyDown k = false :=
  BitVec.getLsbD_zero

/-! ## The load (R136, R137) -/

variable {image : List Byte}

theorem State.load_error (s : State) (h : maxImage < image.length) :
    s.load image = .error (.imageTooLarge image.length) := by
  rw [State.load, if_neg (by simpa [imageFits] using h)]

theorem State.loaded_byteAt_below (s : State) {a : Nat} (h : a < 0x200) : (s.loaded image).byteAt a = s.byteAt a := by
  rw [State.loaded_byteAt, dif_neg (by omega), if_neg (by omega)]

theorem State.loaded_byteAt_image (s : State) {j : Nat} (h : j < image.length) :
    (s.loaded image).byteAt (0x200 + j) = image[j] := by
  rw [State.loaded_byteAt, dif_pos (by omega)]
  simp only [Nat.add_sub_cancel_left]

theorem State.loaded_byteAt_rest (s : State) {a : Nat} (hlo : 0x200 + image.length ≤ a) (hhi : a ≤ 0xFFF) :
    (s.loaded image).byteAt a = 0 := by
  rw [State.loaded_byteAt, dif_neg (by omega), if_pos (by omega)]

end Sys2Proof.Machine

namespace Sys2Proof.Proofs.ResetAndHazards

open Sys2Proof Sys2Proof.Machine

/-- Settles O7: the font table stands at its base because the construction contents have it there. -/
theorem constructedMachine : Obligations.ConstructedMachine := by
  rintro cfg - s rfl
  refine ⟨construct_getV cfg, rfl, rfl, rfl, rfl, rfl, construct_pixel cfg, construct_keyDown cfg, rfl, rfl,
    fun j => ?_, fun a ha => ?_⟩
  · rw [construct_byteAt, unlistedByte_font]
  · rw [construct_byteAt, unlistedByte_outside ha]

/-- Settles O9: below the program, in the image and after it the loaded machine reads as R136 says. -/
theorem loadPlacesTheImageOrRejectsIt : Obligations.LoadPlacesTheImageOrRejectsIt := by
  intro s image
  refine ⟨fun hfits => ⟨s.loaded image, s.load_ok hfits, ?_, ?_, ?_, ?_⟩, fun hlong => s.load_error hlong⟩
  · exact fun a ha => s.loaded_byteAt_below ha
  · exact fun j hj => s.loaded_byteAt_image hj
  · exact fun a hlo hhi => s.loaded_byteAt_rest hlo hhi
  · exact keeps_loaded s hfits fun a hlo hhi => decide_eq_true ⟨hlo, hhi⟩

end Sys2Proof.Proofs.ResetAndHazards
end

section
/-! The frame sequence (spec/70_reset_and_hazards.md section 2): R139 as the spec writes it (`frame`, `runBatch`) and
the machine's steps. They differ in the phase a batch starts in, which `runBatch` does not read, and in that the steps
carry the batch's count in the phase, which an instruction that takes no fault keeps. -/

namespace Sys2Proof.Machine

variable {s t : State} {inp : FrameInput}

/-! ## The top of a frame (R139) -/

theorem step_frameTop (hrun : s.status = .running) (hphase : s.phase = .top) :
    step s = .next (s.afterInput.beginFrame s.frameInput) := by
  unfold step frameStep; rw [hrun, hphase]

/-- Inputs the host has supplied are used in their order. -/
theorem State.frameInput_of_supplied {rest : List FrameInput} (h : s.frameInputs = inp :: rest) :
    s.frameInput = inp ∧ s.afterInput.frameInputs = rest := by
  constructor
  · rw [State.frameInput, h]
  · rw [State.afterInput_frameInputs, h, List.tail_cons]

theorem State.beginFrame_halt (s : State) (h : inp.haltReq = true) : s.beginFrame inp = s.halt :=
  if_pos h

theorem State.beginFrame_batch (s : State) (h : inp.haltReq = false) :
    s.beginFrame inp = (s.tick.latchKeys inp.keysIn).setPhase (.batch s.cfg.instrPerFrame) :=
  if_neg (Bool.eq_false_iff.mp h)

theorem frame_halt (keysIn : BitVec 16) (hrun : s.status = .running) : frame keysIn true s = .next s.halt :=
  if_pos hrun

theorem frame_batch (keysIn : BitVec 16) (hrun : s.status = .running) :
    frame keysIn false s = runBatch s.cfg.instrPerFrame (s.tick.latchKeys keysIn) :=
  if_pos hrun

theorem State.halt_stopped (s : State) : s.halt.status ≠ .running := Status.noConfusion

/-! ## A batch (R139, R140, R141) -/

/-- An instruction step that leaves the machine running keeps the place in the frame. -/
theorem runInstruction_phase (h : runInstruction s = .next t) (hrun : t.status = .running) : t.phase = s.phase := by
  rcases runInstruction_cases h with ⟨r, rfl⟩ | ⟨w, i, -, -, hexec⟩
  · cases hrun
  · obtain ⟨hphase, -⟩ := (exec_keeps hexec hrun).frame
    exact hphase

theorem runBatch_running {left : Nat} (h : runInstruction (s.setPhase (.batch left)) = .next t)
    (hrun : t.status = .running) : runBatch (left + 1) s = runBatch left t := by
  simp only [runBatch, h, if_pos hrun]

theorem runBatch_stopped {left : Nat} (h : runInstruction (s.setPhase (.batch left)) = .next t)
    (hstop : t.status ≠ .running) : runBatch (left + 1) s = .next t := by
  simp only [runBatch, h, if_neg hstop]

/-- A batch does not read the phase it is started in. -/
theorem runBatch_setPhase (n : Nat) (s : State) (p : Phase) : runBatch n (s.setPhase p) = runBatch n s := by
  cases n <;> rfl

/-- From inside a batch the machine's steps are the rest of the batch and the publication. -/
theorem run_batch {left : Nat} (hrun : s.status = .running) (hphase : s.phase = .batch left) :
    Host.Core.run core (left + 1) s = runBatch left s := by
  induction left generalizing s with
  | zero => exact run_succ (step_batchEnd hrun hphase)
  | succ left ih =>
    obtain ⟨t, ht⟩ := runInstruction_next (s.setPhase (.batch left))
    rw [run_succ ((step_batch hrun hphase).trans ht)]
    by_cases hgoes : t.status = .running
    · rw [runBatch_running ht hgoes]
      exact ih hgoes (runInstruction_phase ht hgoes)
    · rw [runBatch_stopped ht hgoes]
      exact run_stopped _ hgoes

/-- A batch that ends stopped has not reached its publication, and its instructions keep the outputs (D33). -/
theorem runBatch_outputs {n : Nat} (hrun : s.status = .running) (h : runBatch n s = .next t)
    (hstop : t.status ≠ .running) : t.fbOut = s.fbOut ∧ t.toneActive = s.toneActive := by
  induction n generalizing s with
  | zero => cases h; exact absurd hrun hstop
  | succ n ih =>
    obtain ⟨u, hu⟩ := runInstruction_next (s.setPhase (.batch n))
    obtain ⟨hfb, htone⟩ := runInstruction_outputs hu
    by_cases hgoes : u.status = .running
    · rw [runBatch_running hu hgoes] at h
      obtain ⟨hfb', htone'⟩ := ih hgoes h
      exact ⟨hfb'.trans hfb, htone'.trans htone⟩
    · rw [runBatch_stopped hu hgoes] at h
      cases h
      exact ⟨hfb, htone⟩

end Sys2Proof.Machine

namespace Sys2Proof.Proofs.ResetAndHazards

open Sys2Proof Sys2Proof.Machine

/-- Settles O53: the top of a frame is the halt, or the tick and the latch. -/
theorem frameTop : Obligations.FrameTop := by
  intro s inp rest hrun hphase hsupplied
  obtain ⟨hinput, hrest⟩ := State.frameInput_of_supplied hsupplied
  have hstep := step_frameTop hrun hphase
  rw [hinput] at hstep
  cases hreq : inp.haltReq
  case true =>
    rw [State.beginFrame_halt _ hreq] at hstep
    exact ⟨_, hstep, hrest, fun _ => rfl, rfl, rfl, rfl, rfl, rfl, rfl, rfl, rfl,
      fun _ => ⟨rfl, rfl, rfl, rfl⟩, Bool.noConfusion⟩
  case false =>
    rw [State.beginFrame_batch _ hreq] at hstep
    exact ⟨_, hstep, hrest, fun _ => rfl, rfl, rfl, rfl, rfl, rfl, rfl, rfl, rfl,
      Bool.noConfusion, fun _ => ⟨hrun, rfl, tickByte_toNat s.dt, tickByte_toNat s.st, rfl⟩⟩

/-- Settles O56: the first step is the top of the frame, the others are its batch or leave the halted machine alone. -/
theorem stepsMakeTheFrame : Obligations.StepsMakeTheFrame := by
  intro s hrun hphase
  have hsampled : s.afterInput.status = .running := hrun
  rw [run_succ (step_frameTop hrun hphase)]
  cases hreq : s.frameInput.haltReq
  case true =>
    rw [State.beginFrame_halt _ hreq, frame_halt _ hsampled]
    exact run_stopped _ s.afterInput.halt_stopped
  case false =>
    rw [State.beginFrame_batch _ hreq, frame_batch _ hsampled, ← runBatch_setPhase]
    exact run_batch hrun rfl

/-- Settles O57: a halt comes before any output is written, and a batch that ends in a fault publishes nothing. -/
theorem faultedFramePublishesNothing : Obligations.FaultedFramePublishesNothing := by
  intro s t keysIn haltReq hrun hframe hstop
  cases haltReq
  case true =>
    rw [frame_halt keysIn hrun] at hframe
    cases hframe
    exact ⟨rfl, rfl⟩
  case false =>
    rw [frame_batch keysIn hrun] at hframe
    exact runBatch_outputs (s := s.tick.latchKeys keysIn) hrun hframe hstop

end Sys2Proof.Proofs.ResetAndHazards
end

section
/-! What holds of every word and every machine: decoding and encoding are each other's inverse, every step has a next
state, and the invariant holds from reset and from every load on (its step lemma is `everyStepKeepsTheInvariant`). -/

namespace Sys2Proof.Machine

/-! ## Every step has a next state (R71, R110, R139) -/

theorem step_next (s : State) : ∃ t, step s = .next t := by
  by_cases hrun : s.status = .running
  · match hphase : s.phase with
    | .top => exact ⟨_, step_frameTop hrun hphase⟩
    | .batch 0 => exact ⟨_, step_batchEnd hrun hphase⟩
    | .batch (left + 1) =>
      rw [step_batch hrun hphase]
      exact runInstruction_next _
  · exact ⟨s, step_stopped hrun⟩

/-! ## The invariant at construction and after a load (R133, R136) -/

theorem construct_inv {cfg : Config} (hcfg : cfg.wellFormed = true) : (State.construct cfg).Inv where
  cfg_legal := hcfg
  mem_canonical := Memory.wf_nil cfg
  stack_bounded := Nat.zero_le _
  index_range := fun _ => Nat.zero_le _
  pc_range := fun _ => show 0x200 ≤ 0x10FE by decide
  returns_range := fun _ _ ha => absurd ha List.not_mem_nil
  batch_range := fun _ => Phase.noConfusion

/-- A load that answers a machine got an image that fits, and answers the loaded machine. -/
theorem State.load_eq_ok {s t : State} {image : List Byte} (h : s.load image = .ok t) :
    image.length ≤ maxImage ∧ t = s.loaded image := by
  by_cases hfits : image.length ≤ maxImage
  · rw [s.load_ok hfits] at h
    cases h
    exact ⟨hfits, rfl⟩
  · rw [s.load_error (Nat.lt_of_not_le hfits)] at h
    cases h

/-- A load writes bytes inside the address space alone. -/
theorem State.Inv.loaded {s : State} (h : s.Inv) {image : List Byte} (hfits : image.length ≤ maxImage) :
    (s.loaded image).Inv :=
  (h.fill (by rw [List.length_replicate]; decide)).fill (Nat.add_le_add_left hfits progBase)

/-- The default configuration is legal, whatever batch size the spec leaves open (R5, R140). -/
theorem default_wellFormed : Config.default.wellFormed = true := by
  have hfont : Config.default.fontFits = true := by decide
  have hstack : Config.default.stackLegal = true := by decide
  have hbatch : Config.default.batchLegal = true := decide_eq_true Proofs.Scope.default_instrPerFrame_pos
  have hkeys : Config.default.keySelectLegal = true := rfl
  rw [Config.wellFormed, hfont, hstack, hbatch, hkeys]
  rfl

end Sys2Proof.Machine

namespace Sys2Proof.Proofs.Other

open Sys2Proof Sys2Proof.Machine

/-- Settles O1: the fields of each format are read back where the encoder placed them. -/
theorem decodeOfEncodeIsTheInstruction : Obligations.DecodeOfEncodeIsTheInstruction :=
  decode_encode

/-- Settles O2: the decode tree reads every bit of a word, as family, sub-opcode or operand. -/
theorem encodeOfDecodeIsTheWord : Obligations.EncodeOfDecodeIsTheWord :=
  fun _ _ h => encode_of_decode h

/-- Settles O12, by the parts of a frame; a stopped machine's next state is its own. -/
theorem everyStepHasANextState : Obligations.EveryStepHasANextState :=
  step_next

/-- Settles O58: reset constructs a machine with a legal configuration. -/
theorem resetMeetsTheInvariant : Obligations.ResetMeetsTheInvariant :=
  construct_inv default_wellFormed

/-- Settles O59: the constructed machine meets the invariant, and the load keeps it. -/
theorem loadedMachineMeetsTheInvariant : Obligations.LoadedMachineMeetsTheInvariant := by
  intro cfg image t hcfg hload
  obtain ⟨hfits, rfl⟩ := State.load_eq_ok hload
  exact (construct_inv hcfg).loaded hfits

end Sys2Proof.Proofs.Other
end
